-- ==== Sys2Proof/Word.lean ====
section
/-! DEFINITION. The word types of the engine (spec/00_scope.md rules R6, R7, R9): nibbles, bytes, 16-bit and 32-bit words,
the seventeen symbols and lines. -/

namespace Sys2Proof

/-- A hexadecimal digit's value, 0 to 15. -/
abbrev Nibble := BitVec 4

/-- "8-bit unsigned" value (R6, `BYTE_BITS`). -/
abbrev Byte := BitVec 8

/-- A 16-bit word: the address field of a record, a bank number (R6, `BANK_BITS`, `UPPER_BITS`). -/
abbrev Half := BitVec 16

/-- A 32-bit absolute address (R6, `ADDR_BITS`). -/
abbrev Addr := BitVec 32

/-- The seventeen characters of R9: `:`, `0` to `9` and `A` to `F`; no other character exists in any line. -/
inductive Sym where
  | colon
  | d0 | d1 | d2 | d3 | d4 | d5 | d6 | d7 | d8 | d9
  | dA | dB | dC | dD | dE | dF
deriving DecidableEq, Repr

/-- "A *line* is a string that is one complete record" (R9); its end is marked out of band (spec/20_memory.md R52). -/
abbrev Line := List Sym

end Sys2Proof
end

