-- ==== Sys2Proof/Config.lean ====
section
/-! DEFINITION. The constants of the design (spec/00_scope.md rule R6) and the free values (log 3): what the transient latches hold
when "no value" is in them (spec/10_state.md rules R30, R31). -/

namespace Sys2Proof.Config

/-- `CHUNK_MAX`: the largest payload of a Data record made by ENCODE. -/
abbrev chunkMax : Nat := 32

/-- `BANK_INIT`: the value of BANK before an ENCODE pass begins. -/
abbrev bankInit : Half := 0#16

/-- `ELA_BC`: the byte count of an Extended Linear Address record. -/
abbrev elaByteCount : Byte := 2#8

/-- `T_DATA`. -/
abbrev tData : Byte := 0#8

/-- `T_EOF`. -/
abbrev tEof : Byte := 1#8

/-- `T_ELA`. -/
abbrev tEla : Byte := 4#8

/-- `2^ADDR_BITS`: one past the last absolute address. -/
abbrev addrLimit : Nat := 2 ^ 32

/-- FREE VALUE (log 3): what F_BC holds after a record, for the n-th value drawn. -/
opaque freeFBc : Nat → Byte

/-- FREE VALUE (log 3): F_ADDR after a record. -/
opaque freeFAddr : Nat → Half

/-- FREE VALUE (log 3): F_RT after a record. -/
opaque freeFRt : Nat → Byte

/-- FREE VALUE (log 3): F_PAY after a record. -/
opaque freeFPay : Nat → List Byte

/-- FREE VALUE (log 3): F_SUM after a record. -/
opaque freeFSum : Nat → Byte

/-- FREE VALUE (log 3): F_CHK after a record. -/
opaque freeFChk : Nat → Byte

/-- FREE VALUE (log 3): E_UPPER after an EMIT_ELA operation. -/
opaque freeEUpper : Nat → Half

end Sys2Proof.Config
end

