-- ==== Sys2Proof/Machine/Operands.lean ====
section
/-! DEFINITION. The arithmetic of the three units as pure functions: byte and nibble splits, hexadecimal rendering, the checksum, the
record line, the ELA line, the EOF line, the address split (spec/40_record_formatter.md, spec/41_extended_address.md,
spec/30_encoding.md rules R80, R84). -/

namespace Sys2Proof

/-- `high8(a) = a >> 8` (R8). -/
def high8 (a : Half) : Byte := a.extractLsb' 8 8

/-- `low8(a) = a & 0xFF` (R8). -/
def low8 (a : Half) : Byte := a.extractLsb' 0 8

/-- `v >> 4` (R111). -/
def highNibble (v : Byte) : Nibble := v.extractLsb' 4 4

/-- `v & 0xF` (R111). -/
def lowNibble (v : Byte) : Nibble := v.extractLsb' 0 4

/-- `HEXDIGIT(d)` (R110): upper case only. -/
def hexDigit (d : Nibble) : Sym :=
  match d.toNat with
  | 0 => .d0 | 1 => .d1 | 2 => .d2 | 3 => .d3 | 4 => .d4 | 5 => .d5 | 6 => .d6 | 7 => .d7
  | 8 => .d8 | 9 => .d9 | 10 => .dA | 11 => .dB | 12 => .dC | 13 => .dD | 14 => .dE | _ => .dF

/-- `HEX2(v)` (R111): high nibble first. -/
def hex2 (v : Byte) : Line := [hexDigit (highNibble v), hexDigit (lowNibble v)]

/-- `HEX4(v) = HEX2(high8(v)) ++ HEX2(low8(v))` (R112). -/
def hex4 (v : Half) : Line := hex2 (high8 v) ++ hex2 (low8 v)

/-- The payload bytes rendered in order, two digits each (R80, R115). -/
def hexBytes : List Byte → Line
  | [] => []
  | b :: bs => hex2 b ++ hexBytes bs

/-- `sum(s)`: the sum of a byte sequence as a natural number (R8). -/
def byteSum : List Byte → Nat
  | [] => 0
  | b :: bs => b.toNat + byteSum bs

/-- `SUM8(bc, addr, rt, payload)` (R113): a sum of natural numbers, reduced modulo 256. -/
def sum8 (bc : Byte) (addr : Half) (rt : Byte) (pay : List Byte) : Byte :=
  BitVec.ofNat 8 (bc.toNat + (high8 addr).toNat + (low8 addr).toNat + rt.toNat + byteSum pay)

/-- `(256 − s) mod 256` (R114). -/
def negate8 (s : Byte) : Byte := BitVec.ofNat 8 (256 - s.toNat)

/-- `CHECKSUM(bc, addr, rt, payload)` (R114). -/
def checksum (bc : Byte) (addr : Half) (rt : Byte) (pay : List Byte) : Byte := negate8 (sum8 bc addr rt pay)

/-- The layout of every line (R80): `:` LL AAAA TT DD… CC. -/
def recordLine (bc : Byte) (addr : Half) (rt : Byte) (pay : List Byte) (chk : Byte) : Line :=
  .colon :: (hex2 bc ++ hex4 addr ++ hex2 rt ++ hexBytes pay ++ hex2 chk)

/-- The value of `FORMAT(byteCount, address, recordType, payload)` (R115), total on all operands (R118, R119; log 15). -/
def formatLine (bc : Byte) (addr : Half) (rt : Byte) (pay : List Byte) : Line :=
  recordLine bc addr rt pay (checksum bc addr rt pay)

/-- The value of `EMIT_ELA(upperAddress)` (R142): the bank as a big-endian 2-byte payload. -/
def elaLine (upper : Half) : Line := formatLine Config.elaByteCount 0#16 Config.tEla [high8 upper, low8 upper]

/-- The literal `:00000001FF` (R88, R168). -/
def eofLine : Line := [.colon, .d0, .d0, .d0, .d0, .d0, .d0, .d0, .d1, .dF, .dF]

/-- `upperAddr` of `SPLIT(A)` (R140): bits 31:16. -/
def splitUpper (a : Addr) : Half := a.extractLsb' 16 16

/-- `lowerAddr` of `SPLIT(A)` (R140): bits 15:0. -/
def splitLower (a : Addr) : Half := a.extractLsb' 0 16

/-- The value of a hexadecimal digit symbol, none for the colon: the inverse of `HEXDIGIT`. -/
def Sym.nibble? : Sym → Option Nibble
  | .colon => none
  | .d0 => some 0#4 | .d1 => some 1#4 | .d2 => some 2#4 | .d3 => some 3#4 | .d4 => some 4#4 | .d5 => some 5#4
  | .d6 => some 6#4 | .d7 => some 7#4 | .d8 => some 8#4 | .d9 => some 9#4 | .dA => some 10#4 | .dB => some 11#4
  | .dC => some 12#4 | .dD => some 13#4 | .dE => some 14#4 | .dF => some 15#4

/-- The 7-bit ASCII code of a symbol in an 8-bit unit, bit 7 clear (R84; log 6). -/
def Sym.ascii : Sym → Byte
  | .colon => 0x3A#8
  | .d0 => 0x30#8 | .d1 => 0x31#8 | .d2 => 0x32#8 | .d3 => 0x33#8 | .d4 => 0x34#8 | .d5 => 0x35#8
  | .d6 => 0x36#8 | .d7 => 0x37#8 | .d8 => 0x38#8 | .d9 => 0x39#8 | .dA => 0x41#8 | .dB => 0x42#8
  | .dC => 0x43#8 | .dD => 0x44#8 | .dE => 0x45#8 | .dF => 0x46#8

/-- The symbol an 8-bit unit codes, none for the 239 codes that are no symbol (R84, R93). -/
def Sym.ofAscii? (b : Byte) : Option Sym :=
  match b.toNat with
  | 0x3A => some .colon
  | 0x30 => some .d0 | 0x31 => some .d1 | 0x32 => some .d2 | 0x33 => some .d3 | 0x34 => some .d4
  | 0x35 => some .d5 | 0x36 => some .d6 | 0x37 => some .d7 | 0x38 => some .d8 | 0x39 => some .d9
  | 0x41 => some .dA | 0x42 => some .dB | 0x43 => some .dC | 0x44 => some .dD | 0x45 => some .dE
  | 0x46 => some .dF
  | _ => none

/-- A line as the bytes of the LOUT port, first character first (R59, R84). -/
def lineAscii (l : Line) : List Byte := l.map Sym.ascii

end Sys2Proof
end

