-- ==== Sys2Proof/Syntax.lean ====
section
/-! DEFINITION. The instruction set: one constructor for each row of spec/opcode_table.json. The first four are the host's
operation selects (spec/30_encoding.md rule R100); the last four are the record lines the engine emits, one per step
(rule R86; spec/42_block_encoder.md rule R169; log 13). -/

namespace Sys2Proof

inductive Instr where
  /-- `ENCODE(startAddress, data)`, select `00` (R160, R161). -/
  | encode (startAddress : Addr) (data : List Byte)
  /-- `FORMAT(byteCount, address, recordType, payload)`, select `01` (R115, R124). -/
  | format (byteCount : Byte) (address : Half) (recordType : Byte) (payload : List Byte)
  /-- `EMIT_ELA(upperAddress)`, select `10` (R142, R146). -/
  | emitEla (upperAddress : Half)
  /-- Select `11`, which names no operation (R104). -/
  | reservedSelect11
  /-- A Data record: `TT` = `00`, `LL` = number of payload bytes (R86, R87, R165). -/
  | recData (byteCount : Byte) (address : Half) (payload : List Byte)
  /-- The End-Of-File record `:00000001FF` (R86, R88, R168). -/
  | recEof
  /-- An Extended Linear Address record for a bank (R86, R89, R142, R164). -/
  | recEla (bank : Half)
  /-- Any `FORMAT` output (R80, R81, R91, R115). -/
  | recGeneric (byteCount : Byte) (address : Half) (recordType : Byte) (payload : List Byte)
deriving DecidableEq, Repr

end Sys2Proof
end

