-- ==== Sys2Proof/WellFormed.lean ====
section
/-! DEFINITION. Well-formed instructions: the host obligation of ENCODE (spec/42_block_encoder.md rule R178), the length premise of
FORMAT (spec/00_scope.md rule R12, spec/40_record_formatter.md rule R119), and which of the record rows a record belongs to
(spec/30_encoding.md rules R81, R86; the `match` and `mask` of spec/opcode_table.json over the header word). A well-formed
instruction is one a claim may speak of; exec runs ill-formed ones too where the spec gives them an effect. -/

namespace Sys2Proof

/-- The header word `H = byteCount × 2^24 + address × 2^8 + recordType` (R81). -/
def headerWord (byteCount : Byte) (address : Half) (recordType : Byte) : BitVec 32 :=
  byteCount ++ address ++ recordType

/-- Row REC_DATA: `H & 0x000000FF = 0x00000000` and exactly `LL` payload bytes. -/
def isDataRecord (byteCount : Byte) (address : Half) (recordType : Byte) (payload : List Byte) : Bool :=
  headerWord byteCount address recordType &&& 0x000000FF#32 == 0x00000000#32 && payload.length == byteCount.toNat

/-- Row REC_EOF: `H = 0x00000001` and no payload. -/
def isEofRecord (byteCount : Byte) (address : Half) (recordType : Byte) (payload : List Byte) : Bool :=
  headerWord byteCount address recordType == 0x00000001#32 && payload.length == 0

/-- Row REC_ELA: `H = 0x02000004` and two payload bytes. -/
def isElaRecord (byteCount : Byte) (address : Half) (recordType : Byte) (payload : List Byte) : Bool :=
  headerWord byteCount address recordType == 0x02000004#32 && payload.length == 2

/-- `len(payload) = byteCount`: the premise a claim about a FORMAT line carries (R119; spec/60_exceptions.md rule R233 V1;
spec/93_implementation_defined.md U1; log 15). The machine does not check it (R118). -/
abbrev LengthsAgree (byteCount : Byte) (payload : List Byte) : Prop := payload.length = byteCount.toNat

/-- ENCODE keeps `startAddress + len(data) ≤ 2^32` (R178); FORMAT and REC_DATA have `len(payload) = byteCount` (R12, R119, and the row's
`DD*LL`); REC_GENERIC stands for the records no more specific row describes (log 13). -/
def Instr.wellFormed : Instr → Bool
  | .encode startAddress data => decide (startAddress.toNat + data.length ≤ 2 ^ 32)
  | .format byteCount _ _ payload => payload.length == byteCount.toNat
  | .emitEla _ => true
  | .reservedSelect11 => true
  | .recData byteCount _ payload => payload.length == byteCount.toNat
  | .recEof => true
  | .recEla _ => true
  | .recGeneric bc addr rt pay =>
    !isDataRecord bc addr rt pay && !isEofRecord bc addr rt pay && !isElaRecord bc addr rt pay

end Sys2Proof
end

