-- ==== Sys2Proof/Decode.lean ====
section
/-! DEFINITION. The two encodings the spec gives: the host's command on the CMD and DIN ports (spec/30_encoding.md rule R100,
spec/20_memory.md rule R68) and the record line (spec/30_encoding.md rules R80 to R90). The decoder is total on both, and on any bytes of a
line in ASCII; it rejects by name. The encoder follows it. -/

namespace Sys2Proof

/-- What the host presents on CMD and DIN (R68): the 2-bit select, one lane for each scalar operand, and the byte sequence with its
length. A lane the selected operation does not name is not looked at (log 8). -/
structure Cmd where
  select : BitVec 2
  startAddress : Addr := 0#32
  byteCount : Byte := 0#8
  address : Half := 0#16
  recordType : Byte := 0#8
  upperAddress : Half := 0#16
  din : List Byte := []
deriving DecidableEq, Repr

/-- An instruction as it stands outside the engine: a command, or a line of text. -/
inductive Code where
  | cmd (c : Cmd)
  | line (l : Line)
deriving DecidableEq, Repr

/-- Why a line or a byte string is no record the engine can emit. -/
inductive DecodeError where
  /-- An 8-bit unit that codes none of the seventeen symbols (R84, R93). -/
  | notASymbol
  /-- The line does not begin with `:` (R80). -/
  | noStartMarker
  /-- A second colon stands among the digits (R93). -/
  | notADigit
  /-- An odd number of hexadecimal digits (R93). -/
  | oddDigits
  /-- Fewer than the five bytes LL, AAAA, TT, CC (R80). -/
  | tooShort
  /-- `CC` is not the checksum of the bytes before it (R114, R116). -/
  | badChecksum
deriving DecidableEq, Repr

/-- The fields of a line (R80, R81). -/
structure RecordFields where
  bc : Byte
  addr : Half
  rt : Byte
  pay : List Byte
  chk : Byte
deriving DecidableEq, Repr

/-- The operation a command names (R100): total on all four selects. -/
def decodeCmd (c : Cmd) : Instr :=
  match c.select.toNat with
  | 0 => .encode c.startAddress c.din
  | 1 => .format c.byteCount c.address c.recordType c.din
  | 2 => .emitEla c.upperAddress
  | _ => .reservedSelect11

/-- Which record row of the opcode table a record belongs to (R86): the most specific row whose `match`, `mask` and layout fit it
(log 13). -/
def classify (bc : Byte) (addr : Half) (rt : Byte) (pay : List Byte) : Instr :=
  if isDataRecord bc addr rt pay then .recData bc addr pay
  else if isEofRecord bc addr rt pay then .recEof
  else if isElaRecord bc addr rt pay then
    match pay with
    | hi :: lo :: _ => .recEla (hi ++ lo)
    | _ => .recGeneric bc addr rt pay
  else .recGeneric bc addr rt pay

/-- The values of a run of digit symbols, none if a colon stands in it. -/
def lineNibbles? : Line → Option (List Nibble)
  | [] => some []
  | c :: cs =>
    match c.nibble?, lineNibbles? cs with
    | some d, some ds => some (d :: ds)
    | _, _ => none

/-- Two digits to a byte, high nibble first (R111); none for an odd number of digits. -/
def nibblePairs? : List Nibble → Option (List Byte)
  | [] => some []
  | [_] => none
  | hi :: lo :: rest =>
    match nibblePairs? rest with
    | some bs => some ((hi ++ lo) :: bs)
    | none => none

/-- The fields of a line by the layout of R80, its checksum not yet compared. -/
def parseLine : Line → Except DecodeError RecordFields
  | .colon :: rest =>
    match lineNibbles? rest with
    | none => .error .notADigit
    | some ds =>
      match nibblePairs? ds with
      | none => .error .oddDigits
      | some (bc :: hi :: lo :: rt :: b :: bs) =>
        .ok { bc := bc, addr := hi ++ lo, rt := rt, pay := (b :: bs).dropLast, chk := (b :: bs).getLast (List.cons_ne_nil b bs) }
      | some _ => .error .tooShort
  | _ => .error .noStartMarker

/-- The record row a line is an instance of. -/
def decodeLine (l : Line) : Except DecodeError Instr :=
  match parseLine l with
  | .error e => .error e
  | .ok r => if r.chk = checksum r.bc r.addr r.rt r.pay then .ok (classify r.bc r.addr r.rt r.pay) else .error .badChecksum

/-- The symbols a byte string codes, none if one of its bytes codes no symbol. -/
def asciiLine? : List Byte → Option Line
  | [] => some []
  | b :: bs =>
    match Sym.ofAscii? b, asciiLine? bs with
    | some c, some cs => some (c :: cs)
    | _, _ => none

/-- The record row that the bytes of a line code, on any bytes (R84). -/
def decodeBytes (bs : List Byte) : Except DecodeError Instr :=
  match asciiLine? bs with
  | none => .error .notASymbol
  | some l => decodeLine l

/-- The decoder, total on both encodings. -/
def decode : Code → Except DecodeError Instr
  | .cmd c => .ok (decodeCmd c)
  | .line l => decodeLine l

/-- The encoder: the command of an operation (R100, R101; lanes it does not name are zero) or the line of a record (R87 to R90). -/
def encode : Instr → Code
  | .encode a d => .cmd { select := 0#2, startAddress := a, din := d }
  | .format bc addr rt pay => .cmd { select := 1#2, byteCount := bc, address := addr, recordType := rt, din := pay }
  | .emitEla u => .cmd { select := 2#2, upperAddress := u }
  | .reservedSelect11 => .cmd { select := 3#2 }
  | .recData bc addr pay => .line (formatLine bc addr Config.tData pay)
  | .recEof => .line eofLine
  | .recEla u => .line (elaLine u)
  | .recGeneric bc addr rt pay => .line (formatLine bc addr rt pay)

/-- The command whose select is the two low bits of `w`, every operand zero and DIN empty (log 8). -/
def tableCmd (w : Nat) : Cmd := { select := BitVec.ofNat 2 w }

/-- The fields of the record whose header word is the low 32 bits of `w` and whose `LL` payload bytes are zero (R81; log 8). -/
def tableFields (w : Nat) : RecordFields :=
  let bc := BitVec.ofNat 8 (w / 2 ^ 24)
  let addr := BitVec.ofNat 16 (w / 2 ^ 8)
  let rt := BitVec.ofNat 8 w
  let pay := List.replicate bc.toNat 0#8
  { bc := bc, addr := addr, rt := rt, pay := pay, chk := checksum bc addr rt pay }

/-- The instruction the decoder reads from the opcode table's word `w`: one byte holds an operation select, more hold a record's header
word (log 8). -/
def decodeTableWord (nbits w : Nat) : Option Instr :=
  if nbits ≤ 8 then some (decodeCmd (tableCmd w))
  else
    let r := tableFields w
    match decodeLine (recordLine r.bc r.addr r.rt r.pay r.chk) with
    | .ok i => some i
    | .error _ => none

end Sys2Proof
end

