-- ==== Sys2Proof/Machine/State.lean ====
section
/-! DEFINITION. The state of one engine (spec/10_state.md rule R21), the fault and refusal reasons, and the state after reset
(rule R36). -/

namespace Sys2Proof.Machine

/-- PHASE (R25). -/
inductive Phase where
  | idle
  | run
  | done
deriving DecidableEq, Repr

/-- OP: the operation of the current pass (R26). -/
inductive Op where
  | encode
  | format
  | emitEla
deriving DecidableEq, Repr

/-- What the host can do to the engine (spec/70_reset_and_hazards.md rule R273; log 2). -/
inductive HostMove where
  /-- Present a command on CMD and DIN (spec/20_memory.md rule R68). -/
  | present (c : Cmd)
  /-- Assert reset (R260, R263). -/
  | reset
deriving DecidableEq, Repr

/-- The Record Formatter's latches (R30): F_BC, F_ADDR, F_RT, F_PAY, F_SUM, F_CHK. -/
structure Formatter where
  bc : Byte
  addr : Half
  rt : Byte
  pay : List Byte
  sum : Byte
  chk : Byte
deriving DecidableEq, Repr

/-- All state of one engine (R21), with two fields of the model's own: `host`, the moves the host will make, in order (log 2), and
`free`, the number of free values drawn (log 3). -/
structure State where
  /-- PHASE (R25). -/
  phase : Phase
  /-- OP (R26). -/
  op : Op
  /-- START (R22). -/
  start : Addr
  /-- DATA (spec/20_memory.md R50): the source data space, a sequence of known length (log 4). -/
  data : List Byte
  /-- OFFSET (R24). -/
  offset : Nat
  /-- BANK (R23). -/
  bank : Half
  /-- OUT (spec/20_memory.md R52), oldest line first. -/
  out : List Line
  /-- F_BC, F_ADDR, F_RT, F_PAY, F_SUM, F_CHK (R30). -/
  fmt : Formatter
  /-- E_UPPER (R31). -/
  eUpper : Half
  /-- The host's moves that the engine has not yet taken, next one first. -/
  host : List HostMove
  /-- How many free values have been drawn. -/
  free : Nat
deriving DecidableEq, Repr

/-- "The set of *faults* is empty" (spec/60_exceptions.md rules R230, R248): nothing raises one. Safe: no step of the spec faults. -/
inductive Fault where
deriving DecidableEq, Repr

/-- Why a step has no next state. -/
inductive Refusal where
  /-- Raised by an arm of exec whose instruction has no meaning yet. Safe. -/
  | notModelled (mnemonic : String)
  /-- Raised by select `11` (R104, U5): "Names no operation ... a model refuses it". Safe. -/
  | reservedSelect
  /-- Raised by an ENCODE launch with `startAddress + len(data) > 2^32` (R178, D3, U2), and by a running ENCODE pass whose current
  address is beyond `0xFFFFFFFF`, which no admitted launch leads to. Safe. -/
  | addressRange
  /-- Raised by exec of a command while PHASE is RUN: "the model gives the host no such move" (R267, V4). The step never asks for it.
  Safe for exec; that no host does it is an assumption of the spec's own (log 11). -/
  | passRunning
  /-- Raised by exec of a record that is not the one the enabled step emits (R169: exactly one step is enabled). The step never asks
  for it. Safe (log 11). -/
  | recordNotDue
deriving DecidableEq, Repr

/-- The outcome of a meaning. -/
abbrev Result := Host.Outcome State Fault Refusal

/-- The machine right after reset (R36): PHASE, OFFSET, BANK and OUT as the spec gives them; what the spec leaves unspecified is zero,
empty or ENCODE (DESIGN CHOICE, log 1), no host move is pending (log 2) and no free value has been drawn (log 3). -/
def State.reset : State where
  phase := .idle
  op := .encode
  start := 0#32
  data := []
  offset := 0
  bank := 0#16
  out := []
  fmt := { bc := 0#8, addr := 0#16, rt := 0#8, pay := [], sum := 0#8, chk := 0#8 }
  eUpper := 0#16
  host := []
  free := 0

end Sys2Proof.Machine
end

