-- ==== Sys2Proof/Machine/Flags.lean ====
section
/-! DEFINITION. The engine has no flags (spec/10_state.md rule R29). What steers it are the derived values of rule R28 and the two
predicates of rule R29, computed anew from the registers wherever a rule names them. -/

namespace Sys2Proof.Machine

/-- `CUR = START + OFFSET`, a natural number that does not wrap (R28, R163). -/
def State.cur (s : State) : Nat := s.start.toNat + s.offset

/-- CUR is an absolute address, below `2^32` (spec/20_memory.md rule R60; log 16). -/
def State.curInRange (s : State) : Bool := decide (s.cur < Config.addrLimit)

/-- `UPPER = CUR >> 16` (R28, R140), used only where CUR is in range. -/
def State.upper (s : State) : Half := splitUpper (BitVec.ofNat 32 s.cur)

/-- `LOWER = CUR & 0xFFFF` (R28, R140), used only where CUR is in range. -/
def State.lower (s : State) : Half := splitLower (BitVec.ofNat 32 s.cur)

/-- `REMAIN = len(DATA) − OFFSET` (R28). -/
def State.remain (s : State) : Nat := s.data.length - s.offset

/-- `CHUNK = min(32, REMAIN)` (R28, R162). -/
def State.chunk (s : State) : Nat := min Config.chunkMax s.remain

/-- `MORE := OFFSET < len(DATA)` (R29). -/
def State.more (s : State) : Bool := decide (s.offset < s.data.length)

/-- `BANK_MISS := UPPER ≠ BANK` (R29): inequality, not "greater than". -/
def State.bankMiss (s : State) : Bool := decide (s.upper ≠ s.bank)

end Sys2Proof.Machine
end

