-- ==== Sys2Proof/Machine/Ops.lean ====
section
/-! DEFINITION. The named operations over the state: reading DATA, emitting a line, the formatter's and the emitter's latches, the start
and the end of a pass, reset. There is no exception to take and none to return from (spec/60_exceptions.md rules R230, R238, R239), so no
operation for either. -/

namespace Sys2Proof.Machine

/-- `MemRead(off, n) = DATA[off .. off+n)` (spec/20_memory.md rule R50): no side effect. -/
def State.memRead (s : State) (off n : Nat) : List Byte := (s.data.drop off).take n

/-- `Emit(line)` (spec/20_memory.md rule R52): one whole line after all lines emitted before it. -/
def State.emit (s : State) (l : Line) : State := { s with out := s.out ++ [l] }

/-- `PHASE <- DONE` (R25). -/
def State.finish (s : State) : State := { s with phase := .done }

/-- `OFFSET <- OFFSET + n` (R166). -/
def State.advance (s : State) (n : Nat) : State := { s with offset := s.offset + n }

/-- `BANK <- b` (R164). -/
def State.setBank (s : State) (b : Half) : State := { s with bank := b }

/-- `F_BC <- byteCount; F_ADDR <- address; F_RT <- recordType; F_PAY <- payload` (R115). -/
def State.loadFormatter (s : State) (bc : Byte) (addr : Half) (rt : Byte) (pay : List Byte) : State :=
  { s with fmt := { s.fmt with bc := bc, addr := addr, rt := rt, pay := pay } }

/-- `F_SUM <- SUM8(F_BC, F_ADDR, F_RT, F_PAY)` (R115). -/
def State.sumFormatter (s : State) : State :=
  { s with fmt := { s.fmt with sum := sum8 s.fmt.bc s.fmt.addr s.fmt.rt s.fmt.pay } }

/-- `F_CHK <- (256 - F_SUM) mod 256` (R115). -/
def State.checkFormatter (s : State) : State := { s with fmt := { s.fmt with chk := negate8 s.fmt.sum } }

/-- The line the latches hold (R115). -/
def Formatter.render (f : Formatter) : Line := recordLine f.bc f.addr f.rt f.pay f.chk

/-- After the record the formatter's latches "have no value" (R30): each holds a free value (log 3). -/
def State.releaseFormatter (s : State) : State :=
  { s with
    fmt :=
      { bc := Config.freeFBc s.free, addr := Config.freeFAddr s.free, rt := Config.freeFRt s.free
        pay := Config.freeFPay s.free, sum := Config.freeFSum s.free, chk := Config.freeFChk s.free }
    free := s.free + 1 }

/-- `E_UPPER <- upperAddress` (R142). -/
def State.loadEmitter (s : State) (u : Half) : State := { s with eUpper := u }

/-- After the operation E_UPPER has no value (R31): it holds a free value (log 3). -/
def State.releaseEmitter (s : State) : State := { s with eUpper := Config.freeEUpper s.free, free := s.free + 1 }

/-- `Emit(FORMAT(bc, addr, rt, pay))` through the formatter's latches (R115). -/
def State.emitFormat (s : State) (bc : Byte) (addr : Half) (rt : Byte) (pay : List Byte) : State :=
  let loaded := ((s.loadFormatter bc addr rt pay).sumFormatter).checkFormatter
  loaded.releaseFormatter.emit loaded.fmt.render

/-- `Emit(EMIT_ELA(u))` through E_UPPER and the formatter's latches (R142). -/
def State.emitEla (s : State) (u : Half) : State :=
  let loaded := s.loadEmitter u
  (loaded.emitFormat Config.elaByteCount 0#16 Config.tEla [high8 loaded.eUpper, low8 loaded.eUpper]).releaseEmitter

/-- What the start of every pass does (R27): `OP <- op`, `OUT <- []`, `PHASE <- RUN`. -/
def State.startPass (s : State) (op : Op) : State := { s with op := op, out := [], phase := .run }

/-- The registers an ENCODE pass loads at its start (R37, R161). -/
def State.loadEncode (s : State) (startAddress : Addr) (data : List Byte) : State :=
  { s with start := startAddress, data := data, offset := 0, bank := Config.bankInit }

/-- A command is taken only when no pass is running (R25, R267): otherwise the model has no such move (V4). -/
def State.ifStartable (s : State) (k : State → Result) : Result :=
  match s.phase with
  | .run => .refused .passRunning
  | .idle | .done => k s

/-- The host's move at the head of its list is taken: `rest` is what it will do next (log 2). -/
def State.withHost (s : State) (rest : List HostMove) : State := { s with host := rest }

/-- Reset, asserted while no pass is running (R263, R273): the state of R36; the host's further moves and the count of free values
are not the engine's and stay (log 14). -/
def State.applyReset (s : State) : State := { State.reset with host := s.host, free := s.free }

end Sys2Proof.Machine
end

