-- ==== Sys2Proof/Machine/Fetch.lean ====
section
/-! DEFINITION. What the engine does next. It fetches no instructions (spec/10_state.md rule R24): while a pass runs, the registers decide
which one record step is enabled (spec/42_block_encoder.md rule R169, spec/40_record_formatter.md rule R124, spec/41_extended_address.md
rule R146); otherwise the host's next move is taken (spec/70_reset_and_hazards.md rule R273). -/

namespace Sys2Proof.Machine

/-- The record an ENCODE pass emits next (R164 to R169): S_EOF without MORE, S_ELA on a bank miss, else S_DATA. A current address beyond
`0xFFFFFFFF` has no record (R178; log 16). -/
def State.dueEncode (s : State) : Option Instr :=
  if s.more then
    if s.curInRange then
      if s.bankMiss then some (.recEla s.upper)
      else some (.recData (BitVec.ofNat 8 s.chunk) s.lower (s.memRead s.offset s.chunk))
    else none
  else some .recEof

/-- The record whose emission is the one enabled step, none when no step is enabled (R169, R124, R146; log 13). -/
def State.due (s : State) : Option Instr :=
  match s.phase with
  | .idle | .done => none
  | .run =>
    match s.op with
    | .encode => s.dueEncode
    | .format => some (classify s.fmt.bc s.fmt.addr s.fmt.rt s.fmt.pay)
    | .emitEla => some (.recEla s.eUpper)

/-- A record step runs only when it is the enabled one. -/
def State.ifDue (s : State) (i : Instr) (k : State → State) : Result :=
  if s.due = some i then .next (k s) else .refused .recordNotDue

/-- A running pass that is made to end, so that a command can be taken; any other phase stays. -/
def Phase.settled : Phase → Phase
  | .run => .done
  | .idle => .idle
  | .done => .done

/-- The opcode table's word `w` put where the next step takes its instruction from: a command at the head of the host's moves, a record
in the formatter's latches of a running FORMAT pass (log 8). -/
def State.placeWord (s : State) (nbits w : Nat) : State :=
  if nbits ≤ 8 then { s with phase := s.phase.settled, host := .present (tableCmd w) :: s.host }
  else
    let r := tableFields w
    { s with phase := .run, op := .format, fmt := { s.fmt with bc := r.bc, addr := r.addr, rt := r.rt, pay := r.pay } }

end Sys2Proof.Machine
end

