-- ==== Sys2Proof/Machine/Commands.lean ====
section
/-! DEFINITION. The meanings of the rows of format OPSEL: the start step of each pass (spec/10_state.md rule R27, points 1 and 2). The
lines of the pass come from the record steps of Machine/Records.lean (log 7). -/

namespace Sys2Proof.Machine

/-- ENCODE: `S_START` (R161), refused beyond the address space (R178). -/
def execEncode (startAddress : Addr) (data : List Byte) (s : State) : Result :=
  s.ifStartable fun s =>
    if startAddress.toNat + data.length ≤ Config.addrLimit then
      .next ((s.startPass .encode).loadEncode startAddress data)
    else .refused .addressRange

/-- FORMAT: the operands are loaded into the formatter's latches (R27, R30, R124); none is checked (R118, R119). -/
def execFormat (byteCount : Byte) (address : Half) (recordType : Byte) (payload : List Byte) (s : State) : Result :=
  s.ifStartable fun s => .next ((s.startPass .format).loadFormatter byteCount address recordType payload)

/-- EMIT_ELA: the operand is loaded into E_UPPER (R27, R31, R146). -/
def execEmitEla (upperAddress : Half) (s : State) : Result :=
  s.ifStartable fun s => .next ((s.startPass .emitEla).loadEmitter upperAddress)

/-- Select `11` "names no operation ... a model should *refuse* it (give it no meaning)" (R104). -/
def execReservedSelect11 (_s : State) : Result := .refused .reservedSelect

end Sys2Proof.Machine
end

