-- ==== Sys2Proof/Machine/Records.lean ====
section
/-! DEFINITION. The meanings of the rows of format RECORD: the engine's step that emits that line, in each kind of pass that emits it
(spec/30_encoding.md rule R86, column "made by"; spec/42_block_encoder.md rules R164 to R168; spec/40_record_formatter.md rule R124;
spec/41_extended_address.md rule R146). -/

namespace Sys2Proof.Machine

/-- REC_DATA: the Data step and the advance of an ENCODE pass (R165, R166), or the one line of a FORMAT pass (R124). -/
def execRecData (byteCount : Byte) (address : Half) (payload : List Byte) (s : State) : Result :=
  s.ifDue (.recData byteCount address payload) fun s =>
    let emitted := s.emitFormat byteCount address Config.tData payload
    match s.op with
    | .encode => emitted.advance byteCount.toNat
    | .format | .emitEla => emitted.finish

/-- REC_EOF: the EOF step of an ENCODE pass, a stored constant (R168, D17), or the one line of `FORMAT(0, 0, 1, [])` (R124). -/
def execRecEof (s : State) : Result :=
  s.ifDue .recEof fun s =>
    match s.op with
    | .encode => (s.emit eofLine).finish
    | .format | .emitEla => (s.emitFormat 0#8 0#16 Config.tEof []).finish

/-- REC_ELA: the ELA step of an ENCODE pass (R164), the one line of an EMIT_ELA pass (R146), or that of a FORMAT pass with the same
fields, which does not use the emitter (R39, R124). -/
def execRecEla (bank : Half) (s : State) : Result :=
  s.ifDue (.recEla bank) fun s =>
    match s.op with
    | .encode => (s.emitEla bank).setBank bank
    | .emitEla => (s.emitEla bank).finish
    | .format => (s.emitFormat Config.elaByteCount 0#16 Config.tEla [high8 bank, low8 bank]).finish

/-- REC_GENERIC: "any FORMAT output": the one line of a FORMAT pass whatever its record type and length (R91, R115, R119, R124). -/
def execRecGeneric (byteCount : Byte) (address : Half) (recordType : Byte) (payload : List Byte) (s : State) : Result :=
  if s.phase = .run ∧ s.op = .format ∧ s.fmt.bc = byteCount ∧ s.fmt.addr = address ∧ s.fmt.rt = recordType ∧ s.fmt.pay = payload then
    .next ((s.emitFormat byteCount address recordType payload).finish)
  else .refused .recordNotDue

end Sys2Proof.Machine
end

