-- ==== Sys2Proof/Machine/Dispatch.lean ====
section
/-! DEFINITION. One arm per constructor of Instr, each one direct call of its meaning. -/

namespace Sys2Proof.Machine

def exec (i : Instr) (s : State) : Host.Outcome State Fault Refusal :=
  match i with
  | .encode startAddress data => Sys2Proof.Machine.execEncode startAddress data s
  | .format byteCount address recordType payload => Sys2Proof.Machine.execFormat byteCount address recordType payload s
  | .emitEla upperAddress => Sys2Proof.Machine.execEmitEla upperAddress s
  | .reservedSelect11 => Sys2Proof.Machine.execReservedSelect11 s
  | .recData byteCount address payload => Sys2Proof.Machine.execRecData byteCount address payload s
  | .recEof => Sys2Proof.Machine.execRecEof s
  | .recEla bank => Sys2Proof.Machine.execRecEla bank s
  | .recGeneric byteCount address recordType payload => Sys2Proof.Machine.execRecGeneric byteCount address recordType payload s

end Sys2Proof.Machine
end

