-- ==== Sys2Proof/Machine/Step.lean ====
section
/-! DEFINITION. One step of the machine, and the placing of an opcode-table word where the step takes its next instruction from. -/

namespace Sys2Proof.Machine

/-- One step. While a pass runs, the engine takes the one enabled record step (spec/42_block_encoder.md rule R169); the host's moves
wait (R267). Otherwise the host's next move is taken: a command, or a reset (spec/70_reset_and_hazards.md rule R273). With no move pending
nothing happens (R262; log 10). -/
def step (s : State) : Host.Outcome State Fault Refusal :=
  match s.phase with
  | .run =>
    match s.due with
    | some i => exec i s
    | none => .refused .addressRange
  | .idle | .done =>
    match s.host with
    | [] => .next s
    | .present c :: rest => exec (decodeCmd c) (s.withHost rest)
    | .reset :: rest => .next (s.withHost rest).applyReset

/-- The state whose very next step runs the opcode table's word `w` (log 8). -/
def State.withFetchWord (s : State) (nbits w : Nat) : State := s.placeWord nbits w

end Sys2Proof.Machine
end

