-- ==== Sys2Proof/Machine/Reader.lean ====
section
/-! DEFINITION. The reference reader of spec/43_properties.md rule R207: "a specification device only", no part of the engine and no
part of State. It fills an image of the target address space (spec/20_memory.md rule R51), kept as a list of cells in one canonical form:
addresses strictly rising. An address not listed holds nothing (log 17). -/

namespace Sys2Proof.Reader

/-- A map from absolute address to byte. -/
abbrev Image := List Host.Cell

/-- The byte at an address, none where nothing was placed. -/
def imageRead : Image → Nat → Option Byte
  | [], _ => none
  | (x, c) :: rest, a => if x = a then some c else imageRead rest a

/-- Place one byte, in the order of addresses; a byte already placed there is replaced. -/
def imageWrite : Image → Nat → Byte → Image
  | [], a, b => [(a, b)]
  | (x, c) :: rest, a, b =>
    if a < x then (a, b) :: (x, c) :: rest
    else if a = x then (a, b) :: rest
    else (x, c) :: imageWrite rest a b

/-- Every address of an image lies above `a`. -/
def allAbove (a : Nat) : Image → Bool
  | [] => true
  | (x, _) :: rest => decide (a < x) && allAbove a rest

/-- The canonical form: addresses strictly rising. -/
def imageWf : Image → Bool
  | [] => true
  | (x, _) :: rest => allAbove x rest && imageWf rest

/-- `image[a + j] <- payload[j]` for every j, "no wrap" (R207). -/
def imageWriteBytes : Image → Nat → List Byte → Image
  | m, _, [] => m
  | m, a, b :: bs => imageWriteBytes (imageWrite m a b) (a + 1) bs

/-- The reader's loop with its two variables, the bank and the image; none where a line has not the layout of R80 or its payload is
shorter or longer than the reader needs, which no line of an ENCODE pass is (log 17). -/
def readLines (bank : Half) (m : Image) : List Line → Option Image
  | [] => some m
  | l :: ls =>
    match parseLine l with
    | .error _ => none
    | .ok r =>
      if r.rt = Config.tEla then
        match r.pay with
        | [hi, lo] => readLines (hi ++ lo) m ls
        | _ => none
      else if r.rt = Config.tData then
        if r.pay.length = r.bc.toNat then
          readLines bank (imageWriteBytes m (bank.toNat * 65536 + r.addr.toNat) r.pay) ls
        else none
      else if r.rt = Config.tEof then some m
      else readLines bank m ls

/-- `DECODE(lines)` (R207): bank 0 and an empty image at the start. -/
def readAll (lines : List Line) : Option Image := readLines 0#16 [] lines

end Sys2Proof.Reader
end

