-- ==== Sys2Proof/Safety.lean ====
section
/-! DEFINITION. The terms claims use: the closed form of an ENCODE pass and its counts (spec/42_block_encoder.md rules R170, R171), what a
line says (spec/43_properties.md), a run of several steps, and the invariant of the machine. None of it is part of the machine. -/

namespace Sys2Proof.Block

/-- `K = ceil(n / 32)` (R170). -/
def chunkCount (n : Nat) : Nat := (n + 31) / 32

/-- `c_k = a + 32k` (R170). -/
def chunkAddr (a : Addr) (k : Nat) : Nat := a.toNat + 32 * k

/-- `u_k = c_k >> 16` (R170). -/
def chunkBank (a : Addr) (k : Nat) : Half := splitUpper (BitVec.ofNat 32 (chunkAddr a k))

/-- `l_k = c_k & 0xFFFF` (R170). -/
def chunkLower (a : Addr) (k : Nat) : Half := splitLower (BitVec.ofNat 32 (chunkAddr a k))

/-- `n_k = min(32, n − 32k)` (R170). -/
def chunkLen (n k : Nat) : Nat := min 32 (n - 32 * k)

/-- `p_k = data[32k .. 32k + n_k)` (R170). -/
def chunkBytes (d : List Byte) (k : Nat) : List Byte := (d.drop (32 * k)).take (chunkLen d.length k)

/-- `u_{k-1}`, with `u_{-1} = 0` (R170). -/
def bankBefore (a : Addr) : Nat → Half
  | 0 => 0#16
  | k + 1 => chunkBank a k

/-- `[EMIT_ELA(u_k)] if u_k != u_{k-1} else []` (R170). -/
def elaLines (a : Addr) (k : Nat) : List Line :=
  if chunkBank a k ≠ bankBefore a k then [elaLine (chunkBank a k)] else []

/-- `FORMAT(n_k, l_k, 0, p_k)` (R170). -/
def dataLine (a : Addr) (d : List Byte) (k : Nat) : Line :=
  formatLine (BitVec.ofNat 8 (chunkLen d.length k)) (chunkLower a k) 0#8 (chunkBytes d k)

/-- The lines of iteration k (R170). -/
def chunkLines (a : Addr) (d : List Byte) (k : Nat) : List Line := elaLines a k ++ [dataLine a d k]

/-- The lines of the first k iterations. -/
def linesUpTo (a : Addr) (d : List Byte) : Nat → List Line
  | 0 => []
  | k + 1 => linesUpTo a d k ++ chunkLines a d k

/-- `ENCODE(a, data)` in closed form (R170). -/
def encodeLines (a : Addr) (d : List Byte) : List Line := linesUpTo a d (chunkCount d.length) ++ [eofLine]

/-- `E = u_{K-1} − u_0 + 1 − z` with `z = 1` if `u_0 = 0` (R171); no ELA line for empty data. -/
def elaCount (a : Addr) (n : Nat) : Nat :=
  if n = 0 then 0
  else (chunkBank a (chunkCount n - 1)).toNat - (chunkBank a 0).toNat + 1 - (if chunkBank a 0 = 0#16 then 1 else 0)

/-- `1 + K + E + 1`: the steps of an ENCODE pass (R171). -/
def stepCount (a : Addr) (n : Nat) : Nat := 1 + chunkCount n + elaCount a n + 1

/-- The bytes a line renders, checksum included (R81): none where it is not `:` and pairs of digits. -/
def lineBytes? : Line → Option (List Byte)
  | .colon :: rest =>
    match lineNibbles? rest with
    | some ds => nibblePairs? ds
    | none => none
  | _ => none

/-- The bank an ELA line carries. -/
def elaBank? (l : Line) : Option Half :=
  match decodeLine l with
  | .ok (.recEla b) => some b
  | _ => none

/-- The payloads of the ELA lines, in the order they appear (R205). -/
def elaBanks (ls : List Line) : List Half := ls.filterMap elaBank?

/-- The payload a Data line carries. -/
def dataPayload? (l : Line) : Option (List Byte) :=
  match decodeLine l with
  | .ok (.recData _ _ p) => some p
  | _ => none

/-- The payloads of the Data lines, in the order they appear (R206). -/
def dataPayloads (ls : List Line) : List (List Byte) := ls.filterMap dataPayload?

/-- For each Data line, in order: `B × 65536 + AAAA`, where B is the payload of the latest ELA line before it, or `bank` if there is none
(R206 item 2). -/
def dataAddrs (bank : Half) : List Line → List Nat
  | [] => []
  | l :: ls =>
    match decodeLine l with
    | .ok (.recEla b) => dataAddrs b ls
    | .ok (.recData _ addr _) => (bank.toNat * 65536 + addr.toNat) :: dataAddrs bank ls
    | _ => dataAddrs bank ls

/-- "begins with `:`, consists otherwise only of the characters `0`–`9`, `A`–`F`" as the codes of R84 (R208). -/
def isHexCode (b : Byte) : Bool :=
  decide (0x30 ≤ b.toNat ∧ b.toNat ≤ 0x39 ∨ 0x41 ≤ b.toNat ∧ b.toNat ≤ 0x46)

end Sys2Proof.Block

namespace Sys2Proof.Machine

/-- k steps, stopping at the first step that has no next state. -/
def runFor : Nat → State → Result
  | 0, s => .next s
  | k + 1, s =>
    match step s with
    | .next t => runFor k t
    | .fault r => .fault r
    | .refused r => .refused r

/-- The address-range obligation (R178) and the bound of OFFSET (R24), while an ENCODE pass runs. -/
def State.rangeOk (s : State) : Prop := s.start.toNat + s.data.length ≤ 2 ^ 32 ∧ s.offset ≤ s.data.length

/-- Where a running ENCODE pass is (R170, R209): at the start of iteration k, `OFFSET = 32k` (or `len(DATA)`) and OUT holds the lines of
the iterations before; BANK is `u_{k-1}`, or `u_k` with the ELA line of iteration k emitted. -/
def State.progress (s : State) : Prop :=
  ∃ k, k ≤ Block.chunkCount s.data.length ∧ s.offset = min (32 * k) s.data.length ∧
    ((s.bank = Block.bankBefore s.start k ∧ s.out = Block.linesUpTo s.start s.data k) ∨
      (k < Block.chunkCount s.data.length ∧ s.bank = Block.chunkBank s.start k ∧
        s.out = Block.linesUpTo s.start s.data k ++ Block.elaLines s.start k))

/-- The invariant of the machine. Before any pass nothing is emitted (R36); a running ENCODE pass keeps its range and is at some
iteration (R170); a running FORMAT or EMIT_ELA pass has emitted nothing (R124, R146); after an ENCODE pass OUT is its whole result
(R160), after another pass one line (R124, R146). -/
def State.Inv (s : State) : Prop :=
  match s.phase, s.op with
  | .idle, _ => s.out = []
  | .run, .encode => s.rangeOk ∧ s.progress
  | .run, _ => s.out = []
  | .done, .encode => s.out = Block.encodeLines s.start s.data
  | .done, _ => s.out.length = 1

end Sys2Proof.Machine
end

