-- ==== Sys2Proof/Certificates/Slice0/Obligations.lean ====
section
/-! DEFINITION. The statements about the engine. Each docstring names the rule of spec/ it formalises; "log n" is notes/assumptions/n.md. -/

open Sys2Proof Sys2Proof.Machine

/-- R36, R260: what the spec gives for the state after reset. -/
def Obligations.ResetStateAsSpecified : Prop :=
  State.reset.phase = .idle ∧ State.reset.offset = 0 ∧ State.reset.bank = 0#16 ∧ State.reset.out = []

/-- R263, R273: a reset asserted while no pass runs gives the state of R36. What OP, START, DATA and the latches then hold is the model's
choice (log 1, log 14); the host's further moves stay. -/
def Obligations.HostResetGivesResetState : Prop :=
  ∀ (s : State) (rest : List HostMove), s.phase ≠ .run → s.host = .reset :: rest →
    ∃ t, step s = .next t ∧ t.phase = .idle ∧ t.offset = 0 ∧ t.bank = 0#16 ∧ t.out = [] ∧ t.host = rest ∧ t.free = s.free

/-- R262: with no pass running and no move of the host, nothing happens. That this is a step which changes nothing is the model's choice
(log 10). -/
def Obligations.NoMoveLeavesEngineAsItIs : Prop :=
  ∀ s : State, s.phase ≠ .run → s.host = [] → step s = .next s

/-- R27: while no pass runs, a step takes the command the host presents next and runs the instruction its words decode to; the move is then
taken off the host's list. -/
def Obligations.StepRunsPresentedCommand : Prop :=
  ∀ (s : State) (c : Cmd) (i : Instr) (rest : List HostMove), s.phase ≠ .run → s.host = .present c :: rest →
    decode (.cmd c) = .ok i → step s = exec i (s.withHost rest)

/-- R169: while a pass runs, a step is the meaning of the one record that is due, and the host's moves wait (R267). -/
def Obligations.StepRunsDueRecord : Prop :=
  ∀ (s : State) (i : Instr), s.due = some i → s.phase = .run ∧ step s = exec i s

/-- R169: which record is due in a running ENCODE pass, R124 and R146: in the other two (log 13 for the row a FORMAT line belongs to,
log 15 for a payload of another length than `LL`). -/
def Obligations.DueRecordIsTheEnabledStep : Prop :=
  ∀ s : State,
    (s.phase ≠ .run → s.due = none) ∧
    (s.phase = .run → s.op = .encode → s.rangeOk →
      (s.offset = s.data.length → s.due = some .recEof) ∧
      (s.offset < s.data.length → s.upper ≠ s.bank → s.due = some (.recEla s.upper)) ∧
      (s.offset < s.data.length → s.upper = s.bank →
        s.due = some (.recData (BitVec.ofNat 8 s.chunk) s.lower (s.memRead s.offset s.chunk)))) ∧
    (s.phase = .run → s.op = .format →
      ∃ i, s.due = some i ∧ decodeLine (formatLine s.fmt.bc s.fmt.addr s.fmt.rt s.fmt.pay) = .ok i) ∧
    (s.phase = .run → s.op = .emitEla → s.due = some (.recEla s.eUpper))

/-- Nine words of the spec decode to what they stand for: the four selects of R100; the lines of E2, E4 and E5 (spec/95_test_vectors.md), F11
and the malformed F18 (log 15), written digit by digit. A tenth line, no word of the spec, has the wrong checksum and is refused. That a line
is read as a record at all, and as which row, is the model's choice (log 13): the engine decodes nothing (R91). -/
def Obligations.SpecWordsDecode : Prop :=
  decodeCmd { select := 0#2, startAddress := 0x0000FFF0#32, din := [7#8] } = .encode 0x0000FFF0#32 [7#8] ∧
  decodeCmd { select := 1#2, byteCount := 1#8, address := 0x0080#16, recordType := 5#8, din := [0x7F#8] }
    = .format 1#8 0x0080#16 5#8 [0x7F#8] ∧
  decodeCmd { select := 2#2, upperAddress := 0x1234#16 } = .emitEla 0x1234#16 ∧
  decodeCmd { select := 3#2 } = .reservedSelect11 ∧
  decodeLine [.colon, .d0, .d3, .d0, .d0, .d0, .d0, .d0, .d0, .d0, .d1, .d0, .d2, .d0, .d3, .dF, .d7]
    = .ok (.recData 3#8 0#16 [1#8, 2#8, 3#8]) ∧
  decodeLine [.colon, .d0, .d2, .d0, .d0, .d0, .d0, .d0, .d4, .d0, .d0, .d0, .d1, .dF, .d9] = .ok (.recEla 1#16) ∧
  decodeLine [.colon, .d0, .d0, .d0, .d0, .d0, .d0, .d0, .d1, .dF, .dF] = .ok .recEof ∧
  decodeLine [.colon, .d0, .d2, .d1, .d2, .d3, .d4, .d0, .d2, .dA, .dB, .dC, .dD, .d3, .dE]
    = .ok (.recGeneric 2#8 0x1234#16 2#8 [0xAB#8, 0xCD#8]) ∧
  decodeLine [.colon, .d0, .d3, .d0, .d0, .d0, .d0, .d0, .d0, .d0, .d1, .d0, .d2, .dF, .dA]
    = .ok (.recGeneric 3#8 0#16 0#8 [1#8, 2#8]) ∧
  decodeLine [.colon, .d0, .d0, .d0, .d0, .d0, .d0, .d0, .d1, .dF, .dE] = .error .badChecksum

/-- R161: the start step of an ENCODE pass, with its whole frame. -/
def Obligations.EncodeStartLoadsThePass : Prop :=
  (∀ c : Cmd, c.select = 0#2 → decodeCmd c = .encode c.startAddress c.din) ∧
  ∀ (s : State) (a : Addr) (d : List Byte), s.phase ≠ .run → a.toNat + d.length ≤ 2 ^ 32 →
    exec (.encode a d) s
      = .next { s with op := .encode, start := a, data := d, offset := 0, bank := 0#16, out := [], phase := .run }

/-- R27 for FORMAT: the start step loads the operands into the latches, whatever they are (R118), and clears OUT. That start and emission
are two steps is the model's choice (log 7). -/
def Obligations.FormatStartLoadsLatches : Prop :=
  (∀ c : Cmd, c.select = 1#2 → decodeCmd c = .format c.byteCount c.address c.recordType c.din) ∧
  ∀ (s : State) (bc : Byte) (addr : Half) (rt : Byte) (pay : List Byte), s.phase ≠ .run →
    exec (.format bc addr rt pay) s
      = .next { s with op := .format, out := [], phase := .run, fmt := { s.fmt with bc := bc, addr := addr, rt := rt, pay := pay } }

/-- R27 for EMIT_ELA: the start step loads E_UPPER and clears OUT (log 7). -/
def Obligations.EmitElaStartLoadsOperand : Prop :=
  (∀ c : Cmd, c.select = 2#2 → decodeCmd c = .emitEla c.upperAddress) ∧
  ∀ (s : State) (u : Half), s.phase ≠ .run →
    exec (.emitEla u) s = .next { s with op := .emitEla, out := [], phase := .run, eUpper := u }

/-- R178, D3: an ENCODE launch that reaches beyond `0xFFFFFFFF` is refused, neither wrapped nor truncated. -/
def Obligations.EncodeBeyondTopIsRefused : Prop :=
  ∀ (s : State) (a : Addr) (d : List Byte), s.phase ≠ .run → 2 ^ 32 < a.toNat + d.length →
    exec (.encode a d) s = .refused .addressRange

/-- R104: select 11 names no operation and is refused. -/
def Obligations.ReservedSelectIsRefused : Prop :=
  (∀ c : Cmd, c.select = 3#2 → decodeCmd c = .reservedSelect11) ∧
  ∀ s : State, exec .reservedSelect11 s = .refused .reservedSelect

/-- R267, V4 of R233: a start while a pass runs is no move of the model; exec answers it with a refusal of its own name (log 11). -/
def Obligations.StartWhileRunningIsNoMove : Prop :=
  ∀ s : State, s.phase = .run →
    (∀ a d, exec (.encode a d) s = .refused .passRunning) ∧
    (∀ bc addr rt pay, exec (.format bc addr rt pay) s = .refused .passRunning) ∧
    (∀ u, exec (.emitEla u) s = .refused .passRunning)

/-- A record that is not due is not emitted: exec answers a refusal of its own name (log 11). REC_GENERIC describes every FORMAT line, so it
is refused only when its fields are not the ones in the latches of a running FORMAT pass (log 13). -/
def Obligations.RecordNotDueIsRefused : Prop :=
  ∀ s : State,
    (∀ bc addr pay, s.due ≠ some (.recData bc addr pay) → exec (.recData bc addr pay) s = .refused .recordNotDue) ∧
    (s.due ≠ some .recEof → exec .recEof s = .refused .recordNotDue) ∧
    (∀ u, s.due ≠ some (.recEla u) → exec (.recEla u) s = .refused .recordNotDue) ∧
    (∀ bc addr rt pay,
      ¬ (s.phase = .run ∧ s.op = .format ∧ s.fmt.bc = bc ∧ s.fmt.addr = addr ∧ s.fmt.rt = rt ∧ s.fmt.pay = pay) →
      exec (.recGeneric bc addr rt pay) s = .refused .recordNotDue)

/-- R165 and R166: the Data step and the advance, and what they leave alone. -/
def Obligations.DataStepEmitsChunkAndAdvances : Prop :=
  ∀ s : State, s.phase = .run → s.op = .encode → s.start.toNat + s.offset < 2 ^ 32 → s.offset < s.data.length → s.upper = s.bank →
    ∃ t, exec (.recData (BitVec.ofNat 8 s.chunk) s.lower (s.memRead s.offset s.chunk)) s = .next t ∧
      t.out = s.out ++ [formatLine (BitVec.ofNat 8 s.chunk) s.lower 0#8 (s.memRead s.offset s.chunk)] ∧
      t.offset = s.offset + s.chunk ∧
      s.chunk = min 32 (s.data.length - s.offset) ∧ 1 ≤ s.chunk ∧
      (BitVec.ofNat 8 s.chunk).toNat = s.chunk ∧ (s.memRead s.offset s.chunk).length = s.chunk ∧
      (∀ j, j < s.chunk → (s.memRead s.offset s.chunk)[j]? = s.data[s.offset + j]?) ∧
      t.phase = .run ∧ t.op = .encode ∧ t.start = s.start ∧ t.data = s.data ∧ t.bank = s.bank ∧ t.eUpper = s.eUpper ∧ t.host = s.host

/-- R164: the ELA step, what it leaves alone, and that the Data step for the same OFFSET is next. -/
def Obligations.ElaStepEmitsBankAndDataStepFollows : Prop :=
  ∀ s : State, s.phase = .run → s.op = .encode → s.start.toNat + s.offset < 2 ^ 32 → s.offset < s.data.length → s.upper ≠ s.bank →
    ∃ t, exec (.recEla s.upper) s = .next t ∧
      t.out = s.out ++ [elaLine s.upper] ∧ t.bank = s.upper ∧
      t.phase = .run ∧ t.op = .encode ∧ t.start = s.start ∧ t.data = s.data ∧ t.offset = s.offset ∧ t.host = s.host ∧
      t.bankMiss = false ∧
      t.due = some (.recData (BitVec.ofNat 8 s.chunk) s.lower (s.memRead s.offset s.chunk))

/-- R168: the EOF step, what it leaves alone, that its line is `FORMAT(0, 0, 1, [])`, and that no step is enabled after it. That
OP, START and DATA stay as they are is the model's choice (log 5; the end states of spec/95_test_vectors.md show them so). -/
def Obligations.EofStepEndsThePass : Prop :=
  ∀ s : State, s.phase = .run → s.op = .encode → s.data.length ≤ s.offset →
    exec .recEof s = .next { s with out := s.out ++ [eofLine], phase := .done } ∧
    eofLine = [.colon, .d0, .d0, .d0, .d0, .d0, .d0, .d0, .d1, .dF, .dF] ∧
    eofLine = formatLine 0#8 0#16 1#8 [] ∧
    State.due { s with out := s.out ++ [eofLine], phase := .done } = none

/-- R124: the emission step of a FORMAT pass, under REC_GENERIC for every operand and under the row the line belongs to (log 13): one line, the
pass ends, and no session register changes (R40). That the line is R115's is claimed under the premise of R119 only (log 15). That OP and DATA
stay is the model's choice (log 5). -/
def Obligations.FormatEmissionEndsThePass : Prop :=
  ∀ s : State, s.phase = .run → s.op = .format →
    ∃ t i, exec (.recGeneric s.fmt.bc s.fmt.addr s.fmt.rt s.fmt.pay) s = .next t ∧
      s.due = some i ∧ exec i s = .next t ∧
      (∃ l, t.out = s.out ++ [l]) ∧
      (LengthsAgree s.fmt.bc s.fmt.pay → t.out = s.out ++ [formatLine s.fmt.bc s.fmt.addr s.fmt.rt s.fmt.pay]) ∧
      t.phase = .done ∧
      t.op = .format ∧ t.start = s.start ∧ t.data = s.data ∧ t.offset = s.offset ∧ t.bank = s.bank ∧ t.eUpper = s.eUpper ∧
      t.host = s.host

/-- R115, R124: each of the four record rows is emitted by a FORMAT pass with its fields; which row a line belongs to is the model's choice
(log 13). REC_GENERIC's line is claimed under the premise of R119 (log 15), which the other rows' fields meet. -/
def Obligations.FormatPassEmitsEveryRow : Prop :=
  ∀ s : State, s.phase = .run → s.op = .format →
    (s.fmt.rt = 0#8 → LengthsAgree s.fmt.bc s.fmt.pay →
      ∃ t, exec (.recData s.fmt.bc s.fmt.addr s.fmt.pay) s = .next t ∧ t.phase = .done ∧
        t.out = s.out ++ [formatLine s.fmt.bc s.fmt.addr 0#8 s.fmt.pay]) ∧
    (s.fmt.bc = 0#8 → s.fmt.addr = 0#16 → s.fmt.rt = 1#8 → s.fmt.pay = [] →
      ∃ t, exec .recEof s = .next t ∧ t.phase = .done ∧ t.out = s.out ++ [eofLine]) ∧
    (∀ u : Half, s.fmt.bc = 2#8 → s.fmt.addr = 0#16 → s.fmt.rt = 4#8 → s.fmt.pay = [high8 u, low8 u] →
      ∃ t, exec (.recEla u) s = .next t ∧ t.phase = .done ∧ t.bank = s.bank ∧ t.eUpper = s.eUpper ∧ t.out = s.out ++ [elaLine u]) ∧
    (∃ t, exec (.recGeneric s.fmt.bc s.fmt.addr s.fmt.rt s.fmt.pay) s = .next t ∧ t.phase = .done ∧
      (∃ l, t.out = s.out ++ [l]) ∧
      (LengthsAgree s.fmt.bc s.fmt.pay → t.out = s.out ++ [formatLine s.fmt.bc s.fmt.addr s.fmt.rt s.fmt.pay]))

/-- R146: the emission step of an EMIT_ELA pass: one line, the pass ends, BANK and the other session registers do not change (R40). That OP and
DATA stay is the model's choice (log 5). -/
def Obligations.EmitElaEmissionEndsThePass : Prop :=
  ∀ s : State, s.phase = .run → s.op = .emitEla →
    ∃ t, exec (.recEla s.eUpper) s = .next t ∧ t.out = s.out ++ [elaLine s.eUpper] ∧ t.phase = .done ∧
      t.op = .emitEla ∧ t.start = s.start ∧ t.data = s.data ∧ t.offset = s.offset ∧ t.bank = s.bank ∧ t.host = s.host

/-- R124: a FORMAT pass started by the host, whole: for operands of every value and a payload of every length it ends with one line; that the
line is R115's is claimed under the premise of R119 only (log 15). That it takes two steps is the model's choice (log 7), and so is that DATA
stays (log 5). -/
def Obligations.FormatPassEmitsOneLine : Prop :=
  ∀ (s : State) (c : Cmd) (rest : List HostMove), s.phase ≠ .run → c.select = 1#2 → s.host = .present c :: rest →
    (∃ u, step s = .next u ∧ u.phase = .run ∧ u.out = []) ∧
    ∃ t, runFor 2 s = .next t ∧ t.phase = .done ∧ (∃ l, t.out = [l]) ∧
      (LengthsAgree c.byteCount c.din → t.out = [formatLine c.byteCount c.address c.recordType c.din]) ∧
      t.start = s.start ∧ t.data = s.data ∧ t.offset = s.offset ∧ t.bank = s.bank ∧ t.eUpper = s.eUpper ∧ t.host = rest

/-- R146: an EMIT_ELA pass started by the host, whole. Two steps: the model's choice (log 7); that DATA stays: log 5. -/
def Obligations.EmitElaPassEmitsOneLine : Prop :=
  ∀ (s : State) (c : Cmd) (rest : List HostMove), s.phase ≠ .run → c.select = 2#2 → s.host = .present c :: rest →
    (∃ u, step s = .next u ∧ u.phase = .run ∧ u.out = []) ∧
    ∃ t, runFor 2 s = .next t ∧ t.phase = .done ∧ t.out = [elaLine c.upperAddress] ∧
      t.start = s.start ∧ t.data = s.data ∧ t.offset = s.offset ∧ t.bank = s.bank ∧ t.host = rest

/-- R160, R169, R170, R171: an ENCODE pass takes `1 + K + E + 1` steps and leaves in OUT the closed form, whatever ran before;
OFFSET and BANK end as R274 says (BANK the bank of the last chunk start, 0 when there is none). That OP, START and DATA
stay after the pass is the model's choice (log 5). -/
def Obligations.EncodePassComputesClosedForm : Prop :=
  ∀ (s : State) (c : Cmd) (rest : List HostMove), s.phase ≠ .run → c.select = 0#2 → s.host = .present c :: rest →
    c.startAddress.toNat + c.din.length ≤ 2 ^ 32 →
    ∃ t, runFor (Block.stepCount c.startAddress c.din.length) s = .next t ∧ t.phase = .done ∧ t.op = .encode ∧
      t.out = Block.encodeLines c.startAddress c.din ∧ t.start = c.startAddress ∧ t.data = c.din ∧
      t.offset = c.din.length ∧ t.bank = Block.bankBefore c.startAddress (Block.chunkCount c.din.length) ∧ t.host = rest

/-- R172: empty data gives the EOF line alone, whatever the start address. -/
def Obligations.EmptyDataGivesEofLineAlone : Prop :=
  ∀ (s : State) (c : Cmd) (rest : List HostMove), s.phase ≠ .run → c.select = 0#2 → s.host = .present c :: rest → c.din = [] →
    ∃ t, runFor 2 s = .next t ∧ t.phase = .done ∧ t.out = [eofLine]

/-- The invariant of the machine holds right after reset. -/
def Obligations.InvariantHoldsAtReset : Prop := State.reset.Inv

/-- Every step from a state that meets the invariant, reached by a run or not, gives a state that meets it (R169, R170, R210;
logs 5 and 10 for what START and DATA hold between passes and for the idle step). -/
def Obligations.InvariantKeptByEveryStep : Prop :=
  ∀ s t : State, s.Inv → step s = .next t → t.Inv

/-- R169, R237: inside a pass exactly one next state is to be had, by the record that is due and by no other instruction, but that in a FORMAT
pass REC_GENERIC of the latches gives it too (log 13). -/
def Obligations.ExactlyOneStepEnabledInAPass : Prop :=
  ∀ s : State, s.phase = .run → (s.op = .encode → s.rangeOk) →
    ∃ i t, s.due = some i ∧ exec i s = .next t ∧
      (s.op = .format → exec (.recGeneric s.fmt.bc s.fmt.addr s.fmt.rt s.fmt.pay) s = .next t) ∧
      ∀ j u, exec j s = .next u →
        u = t ∧ (j = i ∨ (s.op = .format ∧ j = .recGeneric s.fmt.bc s.fmt.addr s.fmt.rt s.fmt.pay))

/-- R210: while a pass runs every step appends exactly one line; OP (R26), START (R22), DATA (R50, R266) and the host's moves do not change,
and OFFSET never decreases (R24; R40 for FORMAT and EMIT_ELA). The rules say this of OP, START and DATA during the pass only: that they are
also kept by its last step, after which PHASE is DONE and R36 and R274 leave OP and START unspecified, is the model's choice (log 5). -/
def Obligations.RunningStepAppendsOneLine : Prop :=
  ∀ s t : State, s.phase = .run → step s = .next t →
    (∃ l, t.out = s.out ++ [l]) ∧ t.op = s.op ∧ t.start = s.start ∧ t.data = s.data ∧ t.host = s.host ∧ s.offset ≤ t.offset

/-- R80, R81: the line a running step emits, read back by the decoder, is the instruction the step ran. That a line is read as one particular
row is the model's choice (log 13); a FORMAT line whose payload has another length than `LL` is the literal one (log 15). -/
def Obligations.EmittedLineDecodesToItsInstruction : Prop :=
  ∀ (s t : State) (i : Instr), s.due = some i → step s = .next t → ∃ l, t.out = s.out ++ [l] ∧ decodeLine l = .ok i

/-- "terminates unconditionally" (R27, R167): from every running state that keeps the range the pass ends within the steps its remaining
bytes allow. -/
def Obligations.EveryPassEnds : Prop :=
  ∀ s : State, s.phase = .run → (s.op = .encode → s.rangeOk) →
    ∃ k t, k ≤ 2 * Block.chunkCount (s.data.length - s.offset) + 1 ∧ runFor k s = .next t ∧ t.phase = .done

/-- R180: the result of a pass does not depend on what ran before. -/
def Obligations.PassIsIndependentOfHistory : Prop :=
  ∀ (s s' : State) (c : Cmd) (k : Nat) (t : State), s.phase ≠ .run → s'.phase ≠ .run → s.host = [.present c] → s'.host = [.present c] →
    runFor (k + 1) s = .next t → ∃ t', runFor (k + 1) s' = .next t' ∧ t'.out = t.out ∧ t'.phase = t.phase

/-- R230, R248: a running pass is never stuck: from every state that meets the invariant, whatever the operation, the step answers a next
state, so it neither faults nor is refused. -/
def Obligations.RunningPassIsNeverStuck : Prop :=
  ∀ s : State, s.Inv → s.phase = .run → ∃ t, step s = .next t

/-- R248: from a state that meets the invariant only the launches V2 and V5 of R233 are refused; a running pass never is. -/
def Obligations.OnlyBadLaunchesAreRefused : Prop :=
  ∀ (s : State) (r : Refusal), s.Inv → step s = .refused r →
    s.phase ≠ .run ∧ ∃ c rest, s.host = .present c :: rest ∧
      (c.select = 3#2 ∧ r = .reservedSelect ∨
        c.select = 0#2 ∧ 2 ^ 32 < c.startAddress.toNat + c.din.length ∧ r = .addressRange)

/-- R33, R209: in a running ENCODE pass BANK is 0 or the payload of the latest ELA line, and OFFSET is the sum of the lengths of the Data
lines emitted so far. -/
def Obligations.HiddenRegistersReadFromOutput : Prop :=
  ∀ s : State, s.Inv → s.phase = .run → s.op = .encode →
    s.bank = (Block.elaBanks s.out).getLastD 0#16 ∧ s.offset = (Block.dataPayloads s.out).flatten.length

/-- R80, R81, R82: a well-formed record's line is `:` and the two digits of each byte of the record, `11 + 2 × byteCount` characters. The
premise is R119's (log 15). -/
def Obligations.LineRendersRecordBytes : Prop :=
  ∀ (bc : Byte) (addr : Half) (rt : Byte) (pay : List Byte), LengthsAgree bc pay →
    Block.lineBytes? (formatLine bc addr rt pay)
      = some (bc :: high8 addr :: low8 addr :: rt :: (pay ++ [checksum bc addr rt pay])) ∧
    (formatLine bc addr rt pay).length = 11 + 2 * bc.toNat

/-- R116: the zero-sum law, and that the checksum is the only byte with this property. -/
def Obligations.ZeroSumLaw : Prop :=
  ∀ (bc : Byte) (addr : Half) (rt : Byte) (pay : List Byte) (c : Byte),
    (bc.toNat + (high8 addr).toNat + (low8 addr).toNat + rt.toNat + byteSum pay + c.toNat) % 256 = 0
      ↔ c = checksum bc addr rt pay

/-- R113: an 8-bit accumulator that adds the record's bytes one at a time in any order gives SUM8. -/
def Obligations.ChecksumAccumulatorInAnyOrder : Prop :=
  ∀ (bc : Byte) (addr : Half) (rt : Byte) (pay bytes : List Byte),
    bytes.Perm (bc :: high8 addr :: low8 addr :: rt :: pay) → bytes.foldl (· + ·) 0#8 = sum8 bc addr rt pay

/-- R140: the split of an address, which loses nothing. -/
def Obligations.SplitLosesNothing : Prop :=
  ∀ a : Addr, (splitUpper a).toNat = a.toNat / 65536 ∧ (splitLower a).toNat = a.toNat % 65536 ∧
    a.toNat = (splitUpper a).toNat * 65536 + (splitLower a).toNat ∧ a = splitUpper a ++ splitLower a

/-- R141: the laws of the split along a run of addresses, and that the chunk starts of a pass skip no bank. -/
def Obligations.SplitAlongAddresses : Prop :=
  (∀ (a : Addr) (d : Nat), a.toNat + d < 2 ^ 32 →
    (splitUpper a).toNat ≤ (splitUpper (BitVec.ofNat 32 (a.toNat + d))).toNat ∧
    (splitUpper (BitVec.ofNat 32 (a.toNat + d))).toNat = (splitUpper a).toNat + ((splitLower a).toNat + d) / 65536 ∧
    (d ≤ 32 →
      ((splitLower a).toNat + d < 65536 ∧ splitUpper (BitVec.ofNat 32 (a.toNat + d)) = splitUpper a) ∨
      (65536 ≤ (splitLower a).toNat + d ∧
        (splitUpper (BitVec.ofNat 32 (a.toNat + d))).toNat = (splitUpper a).toNat + 1 ∧
        (splitLower (BitVec.ofNat 32 (a.toNat + d))).toNat = (splitLower a).toNat + d - 65536))) ∧
  (∀ (a : Addr) (k : Nat), a.toNat + 32 * (k + 1) < 2 ^ 32 →
    Block.chunkBank a (k + 1) = Block.chunkBank a k ∨
      (Block.chunkBank a (k + 1)).toNat = (Block.chunkBank a k).toNat + 1)

/-- R143: the ELA line in closed form. -/
def Obligations.ElaLineClosedForm : Prop :=
  ∀ u : Half,
    elaLine u = [.colon, .d0, .d2, .d0, .d0, .d0, .d0, .d0, .d4] ++ hex4 u
      ++ hex2 (BitVec.ofInt 8 (250 - ((u.toNat / 256 : Nat) : Int) - ((u.toNat % 256 : Nat) : Int))) ∧
    (elaLine u).length = 15

/-- Decode and encode agree on every well-formed instruction (R80 to R92, R100), and so does the decoder of ASCII bytes on every record's
line (R84, log 6). Which row a record belongs to is log 13; REC_GENERIC takes in the literal lines of log 15. -/
def Obligations.DecodeOfEncodeIsIdentity : Prop :=
  ∀ i : Instr, i.wellFormed = true →
    decode (encode i) = .ok i ∧ ∀ l, encode i = .line l → decodeBytes (lineAscii l) = .ok i

/-- The other direction: an accepted line is the encoding of the well-formed instruction it decodes to, so no two different lines decode to
the same instruction. Which row it is, is log 13; the literal lines of log 15 are among the lines. -/
def Obligations.EncodeOfDecodedLineIsTheLine : Prop :=
  ∀ (l : Line) (i : Instr), decodeLine l = .ok i → encode i = .line l ∧ i.wellFormed = true

/-- R171: the counts of an ENCODE result: Data lines, ELA lines, lines, characters. -/
def Obligations.EncodeResultCounts : Prop :=
  ∀ (a : Addr) (d : List Byte), a.toNat + d.length ≤ 2 ^ 32 →
    (Block.dataPayloads (Block.encodeLines a d)).length = (d.length + 31) / 32 ∧
    (Block.elaBanks (Block.encodeLines a d)).length = Block.elaCount a d.length ∧
    (Block.encodeLines a d).length = (d.length + 31) / 32 + Block.elaCount a d.length + 1 ∧
    ((Block.encodeLines a d).map List.length).sum
      = 11 * ((d.length + 31) / 32) + 2 * d.length + 15 * Block.elaCount a d.length + 11

/-- R201: every line of an ENCODE result sums to zero modulo 256. -/
def Obligations.EveryEncodeLineSumsToZero : Prop :=
  ∀ (a : Addr) (d : List Byte), a.toNat + d.length ≤ 2 ^ 32 →
    ∀ l ∈ Block.encodeLines a d, ∃ bytes, Block.lineBytes? l = some bytes ∧ byteSum bytes % 256 = 0

/-- R202: every Data line has 1 to 32 payload bytes, all but the last 32, and LL counts them. -/
def Obligations.DataPayloadBound : Prop :=
  ∀ (a : Addr) (d : List Byte), a.toNat + d.length ≤ 2 ^ 32 →
    (∀ l ∈ Block.encodeLines a d, ∀ r, parseLine l = .ok r → r.rt = 0#8 →
      1 ≤ r.bc.toNat ∧ r.bc.toNat ≤ 32 ∧ r.pay.length = r.bc.toNat) ∧
    (∀ (k : Nat) (p : List Byte), (Block.dataPayloads (Block.encodeLines a d))[k]? = some p →
      k + 1 < (Block.dataPayloads (Block.encodeLines a d)).length → p.length = 32)

/-- R203, R176: the last line is `:00000001FF`, no other line has type 01, and no type but 00, 01, 04 appears. -/
def Obligations.EofLineLastAndOnlyThere : Prop :=
  ∀ (a : Addr) (d : List Byte), a.toNat + d.length ≤ 2 ^ 32 →
    (Block.encodeLines a d).getLast? = some eofLine ∧
    ∀ l ∈ (Block.encodeLines a d).dropLast, ∃ r, parseLine l = .ok r ∧ (r.rt = 0#8 ∨ r.rt = 4#8)

/-- R204: placement of the ELA lines. Every ELA line stands directly before the first Data record that starts in its bank, a bank other
than 0 in which a record starts; every such bank has exactly one; an ELA line is followed by a Data line. -/
def Obligations.ElaPlacement : Prop :=
  ∀ (a : Addr) (d : List Byte), a.toNat + d.length ≤ 2 ^ 32 →
    (∀ k, k < Block.chunkCount d.length → Block.chunkBank a k ≠ 0#16 →
      (Block.elaBanks (Block.encodeLines a d)).count (Block.chunkBank a k) = 1) ∧
    0#16 ∉ Block.elaBanks (Block.encodeLines a d) ∧
    (∀ b ∈ Block.elaBanks (Block.encodeLines a d), ∃ k, k < Block.chunkCount d.length ∧ Block.chunkBank a k = b) ∧
    (∀ (n : Nat) (l : Line) (b : Half), (Block.encodeLines a d)[n]? = some l → Block.elaBank? l = some b →
      ∃ k, k < Block.chunkCount d.length ∧ Block.chunkBank a k = b ∧ (∀ j, j < k → Block.chunkBank a j ≠ b) ∧
        (Block.encodeLines a d)[n + 1]? = some (Block.dataLine a d k) ∧
        (Block.dataPayloads ((Block.encodeLines a d).take n)).length = k)

/-- R205: the ELA payloads are consecutive banks, from `max(u_0, 1)` to `u_{K-1}`. -/
def Obligations.ElaBanksAscendByOne : Prop :=
  ∀ (a : Addr) (d : List Byte), a.toNat + d.length ≤ 2 ^ 32 →
    (Block.elaBanks (Block.encodeLines a d)).map BitVec.toNat
      = List.range' (max (Block.chunkBank a 0).toNat 1) (Block.elaCount a d.length) ∧
    (Block.elaBanks (Block.encodeLines a d) ≠ [] →
      (Block.elaBanks (Block.encodeLines a d)).getLast? = some (Block.chunkBank a (Block.chunkCount d.length - 1)))

/-- R206: the Data payloads in order are the data, and the k-th Data line stands at `a + 32k`. -/
def Obligations.OutputReconstructsTheBlock : Prop :=
  ∀ (a : Addr) (d : List Byte), a.toNat + d.length ≤ 2 ^ 32 →
    (Block.dataPayloads (Block.encodeLines a d)).flatten = d ∧
    Block.dataAddrs 0#16 (Block.encodeLines a d)
      = (List.range (Block.chunkCount d.length)).map (fun k => a.toNat + 32 * k)

/-- R207: the reference reader recovers exactly the block, in an image of canonical form. -/
def Obligations.ReaderRecoversTheBlock : Prop :=
  ∀ (a : Addr) (d : List Byte), a.toNat + d.length ≤ 2 ^ 32 →
    ∃ m, Reader.readAll (Block.encodeLines a d) = some m ∧ Reader.imageWf m = true ∧
      ∀ x, Reader.imageRead m x = if a.toNat ≤ x then d[x - a.toNat]? else none

/-- R208, R84, R93: on the wire every line is `3A` and then codes of `0` to `9` and `A` to `F` only, bit 7 clear, `11 + 2 × LL` of them. -/
def Obligations.EveryEncodeLineIsWellFormedText : Prop :=
  ∀ (a : Addr) (d : List Byte), a.toNat + d.length ≤ 2 ^ 32 →
    ∀ l ∈ Block.encodeLines a d, ∃ digits r, lineAscii l = 0x3A#8 :: digits ∧ (∀ b ∈ digits, Block.isHexCode b = true) ∧
      parseLine l = .ok r ∧ l.length = 11 + 2 * r.bc.toNat ∧ r.pay.length = r.bc.toNat

/-- R173, R174: the first line of a non-empty block is the ELA line of its bank, or a Data line if the bank is 0; bank 0 never gets one. -/
def Obligations.FirstLineDependsOnBank : Prop :=
  ∀ (a : Addr) (d : List Byte), a.toNat + d.length ≤ 2 ^ 32 → d ≠ [] →
    (0x10000 ≤ a.toNat → (Block.encodeLines a d).head? = some (elaLine (splitUpper a))) ∧
    (a.toNat < 0x10000 → (Block.encodeLines a d).head? = some (Block.dataLine a d 0)) ∧
    elaLine 0#16 ∉ Block.encodeLines a d

/-- R57, R175, R177: a chunk that crosses a bank boundary is one record; the ELA line for the next bank comes with the next chunk, or not at
all if there is none. -/
def Obligations.CrossingChunkIsOneRecord : Prop :=
  ∀ (a : Addr) (d : List Byte) (k : Nat), a.toNat + d.length ≤ 2 ^ 32 → k < Block.chunkCount d.length →
    65536 ≤ (Block.chunkLower a k).toNat + Block.chunkLen d.length k →
    Block.dataLine a d k ∈ Block.encodeLines a d ∧
    (k + 1 < Block.chunkCount d.length →
      (Block.chunkBank a (k + 1)).toNat = (Block.chunkBank a k).toNat + 1 ∧
      (Block.chunkLower a (k + 1)).toNat = (Block.chunkLower a k).toNat + 32 - 65536 ∧
      [elaLine (Block.chunkBank a (k + 1)), Block.dataLine a d (k + 1)] = Block.chunkLines a d (k + 1)) ∧
    (k + 1 = Block.chunkCount d.length → elaLine (Block.chunkBank a k + 1#16) ∉ Block.encodeLines a d)

/-- R119 and decision D5 outside the premise: FORMAT with another payload length than `byteCount` is not rejected; its line shows `LL` as
given and renders all bytes supplied and only those, and a FORMAT pass emits it under REC_GENERIC (log 13) and ends. That these are the line's
characters is the spec's reading, not an observed output, and the model's choice to follow (log 15). -/
def Obligations.IllFormedFormatGivesTheLiteralLine : Prop :=
  (∀ (bc : Byte) (addr : Half) (rt : Byte) (pay : List Byte), ¬ LengthsAgree bc pay →
    Block.lineBytes? (formatLine bc addr rt pay)
      = some (bc :: high8 addr :: low8 addr :: rt :: (pay ++ [checksum bc addr rt pay])) ∧
    (formatLine bc addr rt pay).length = 11 + 2 * pay.length) ∧
  (∀ s : State, s.phase = .run → s.op = .format → ¬ LengthsAgree s.fmt.bc s.fmt.pay →
    s.due = some (.recGeneric s.fmt.bc s.fmt.addr s.fmt.rt s.fmt.pay) ∧
    ∃ t, exec (.recGeneric s.fmt.bc s.fmt.addr s.fmt.rt s.fmt.pay) s = .next t ∧ t.phase = .done ∧
      t.out = s.out ++ [formatLine s.fmt.bc s.fmt.addr s.fmt.rt s.fmt.pay]) ∧
  (∀ (s : State) (c : Cmd) (rest : List HostMove), s.phase ≠ .run → c.select = 1#2 → s.host = .present c :: rest →
    ¬ LengthsAgree c.byteCount c.din →
    ∃ t, runFor 2 s = .next t ∧ t.phase = .done ∧ t.out = [formatLine c.byteCount c.address c.recordType c.din])
end

