-- ==== Sys2Proof/Laws/Decode.lean ====
section
/-! SUPPORT. The decoder reads what the renderer writes: digits, bytes, lines, and the row a record is classified under. -/

namespace Sys2Proof

@[simp] theorem nibble?_hexDigit (d : Nibble) : (hexDigit d).nibble? = some d := by
  revert d; decide

theorem hexDigit_of_nibble? (c : Sym) (d : Nibble) (h : c.nibble? = some d) : hexDigit d = c := by
  revert d; cases c <;> simp [Sym.nibble?] <;> decide

@[simp] theorem highNibble_append_lowNibble (v : Byte) : (highNibble v ++ lowNibble v : BitVec 8) = v := by
  revert v; decide

@[simp] theorem highNibble_append (a b : Nibble) : highNibble (a ++ b) = a := by
  revert a b; decide

@[simp] theorem lowNibble_append (a b : Nibble) : lowNibble (a ++ b) = b := by
  revert a b; decide

theorem append_toNat {w v : Nat} (a : BitVec w) (b : BitVec v) : (a ++ b).toNat = a.toNat * 2 ^ v + b.toNat := by
  rw [BitVec.toNat_append, ← Nat.shiftLeft_add_eq_or_of_lt b.isLt, Nat.shiftLeft_eq]

theorem high8_toNat (a : Half) : (high8 a).toNat = a.toNat / 256 := by
  have := a.isLt
  simp [high8, Nat.shiftRight_eq_div_pow]
  omega

theorem low8_toNat (a : Half) : (low8 a).toNat = a.toNat % 256 := by
  simp [low8]

@[simp] theorem high8_append_low8 (v : Half) : (high8 v ++ low8 v : BitVec 16) = v := by
  apply BitVec.eq_of_toNat_eq
  rw [append_toNat, high8_toNat, low8_toNat]
  omega

@[simp] theorem high8_append (a b : Byte) : high8 (a ++ b) = a := by
  have := b.isLt
  apply BitVec.eq_of_toNat_eq
  rw [high8_toNat, append_toNat]
  omega

@[simp] theorem low8_append (a b : Byte) : low8 (a ++ b) = b := by
  have := b.isLt
  apply BitVec.eq_of_toNat_eq
  rw [low8_toNat, append_toNat]
  omega

/-- The nibbles of a byte sequence, high one first. -/
def byteNibbles : List Byte → List Nibble
  | [] => []
  | b :: bs => highNibble b :: lowNibble b :: byteNibbles bs

@[simp] theorem nibblePairs?_byteNibbles (bs : List Byte) : nibblePairs? (byteNibbles bs) = some bs := by
  induction bs with
  | nil => rfl
  | cons b bs ih => simp [byteNibbles, nibblePairs?, ih]

@[simp] theorem lineNibbles?_hexBytes (bs : List Byte) : lineNibbles? (hexBytes bs) = some (byteNibbles bs) := by
  induction bs with
  | nil => rfl
  | cons b bs ih => simp [hexBytes, hex2, lineNibbles?, byteNibbles, ih]

theorem hexBytes_append (xs ys : List Byte) : hexBytes (xs ++ ys) = hexBytes xs ++ hexBytes ys := by
  induction xs with
  | nil => rfl
  | cons x xs ih => simp [hexBytes, ih]

@[simp] theorem hexBytes_length (bs : List Byte) : (hexBytes bs).length = 2 * bs.length := by
  induction bs with
  | nil => rfl
  | cons b bs ih => simp [hexBytes, hex2, ih]; omega

/-- A line is `:` and then HEX2 of each byte of the record in turn (R81). -/
theorem recordLine_eq (bc : Byte) (addr : Half) (rt : Byte) (pay : List Byte) (chk : Byte) :
    recordLine bc addr rt pay chk = .colon :: hexBytes (bc :: high8 addr :: low8 addr :: rt :: (pay ++ [chk])) := by
  simp [recordLine, hexBytes, hexBytes_append, hex4]

@[simp] theorem parseLine_recordLine (bc : Byte) (addr : Half) (rt : Byte) (pay : List Byte) (chk : Byte) :
    parseLine (recordLine bc addr rt pay chk) = .ok { bc := bc, addr := addr, rt := rt, pay := pay, chk := chk } := by
  have h : ∀ (pay : List Byte), ∃ b bs, pay ++ [chk] = b :: bs := by
    intro pay; cases pay <;> simp
  obtain ⟨b, bs, hb⟩ := h pay
  have h1 : (b :: bs).dropLast = pay := by rw [← hb]; simp
  have h2 : (b :: bs).getLast (List.cons_ne_nil b bs) = chk := by simp [← hb]
  rw [recordLine_eq, hb]
  simp only [parseLine, lineNibbles?_hexBytes, nibblePairs?_byteNibbles, h1, h2, high8_append_low8]

@[simp] theorem recordLine_length (bc : Byte) (addr : Half) (rt : Byte) (pay : List Byte) (chk : Byte) :
    (recordLine bc addr rt pay chk).length = 11 + 2 * pay.length := by
  rw [recordLine_eq]; simp; omega

@[simp] theorem formatLine_length (bc : Byte) (addr : Half) (rt : Byte) (pay : List Byte) :
    (formatLine bc addr rt pay).length = 11 + 2 * pay.length := recordLine_length ..

/-- FORMAT's line decodes to the row its fields belong to. -/
@[simp] theorem decodeLine_formatLine (bc : Byte) (addr : Half) (rt : Byte) (pay : List Byte) :
    decodeLine (formatLine bc addr rt pay) = .ok (classify bc addr rt pay) := by
  simp [decodeLine, formatLine]

theorem eofLine_eq : eofLine = formatLine 0#8 0#16 1#8 [] := by decide

theorem decodeLine_eofLine : decodeLine eofLine = .ok .recEof := by decide

theorem headerWord_toNat (bc : Byte) (addr : Half) (rt : Byte) :
    (headerWord bc addr rt).toNat = bc.toNat * 2 ^ 24 + addr.toNat * 2 ^ 8 + rt.toNat := by
  simp only [headerWord, append_toNat]
  omega

theorem headerWord_inj {bc bc' : Byte} {addr addr' : Half} {rt rt' : Byte} :
    headerWord bc addr rt = headerWord bc' addr' rt' ↔ bc = bc' ∧ addr = addr' ∧ rt = rt' := by
  refine ⟨fun h => ?_, fun ⟨h1, h2, h3⟩ => by subst h1 h2 h3; rfl⟩
  have h := congrArg BitVec.toNat h
  rw [headerWord_toNat, headerWord_toNat] at h
  have := addr.isLt
  have := addr'.isLt
  have := rt.isLt
  have := rt'.isLt
  refine ⟨?_, ?_, ?_⟩ <;> apply BitVec.eq_of_toNat_eq <;> omega

/-- The low byte of the header word is the record type (R81). -/
theorem headerWord_and_eq_zero (bc : Byte) (addr : Half) (rt : Byte) :
    headerWord bc addr rt &&& 0x000000FF#32 = 0x00000000#32 ↔ rt = 0#8 := by
  have h : (headerWord bc addr rt &&& 0x000000FF#32).toNat = rt.toNat := by
    rw [BitVec.toNat_and, headerWord_toNat, show (0x000000FF#32).toNat = 2 ^ 8 - 1 from rfl, Nat.and_two_pow_sub_one_eq_mod]
    have := rt.isLt
    omega
  rw [← BitVec.toNat_inj, ← BitVec.toNat_inj, h]
  rfl

theorem isDataRecord_iff (bc : Byte) (addr : Half) (rt : Byte) (pay : List Byte) :
    isDataRecord bc addr rt pay = true ↔ rt = 0#8 ∧ pay.length = bc.toNat := by
  simp only [isDataRecord, headerWord_and_eq_zero, Bool.and_eq_true, beq_iff_eq]

theorem isEofRecord_iff (bc : Byte) (addr : Half) (rt : Byte) (pay : List Byte) :
    isEofRecord bc addr rt pay = true ↔ bc = 0#8 ∧ addr = 0#16 ∧ rt = 1#8 ∧ pay = [] := by
  have h : (0x00000001#32) = headerWord 0#8 0#16 1#8 := by decide
  simp only [isEofRecord, h, headerWord_inj, Bool.and_eq_true, beq_iff_eq, List.length_eq_zero_iff, and_assoc]

theorem isElaRecord_iff (bc : Byte) (addr : Half) (rt : Byte) (pay : List Byte) :
    isElaRecord bc addr rt pay = true ↔ bc = 2#8 ∧ addr = 0#16 ∧ rt = 4#8 ∧ pay.length = 2 := by
  have h : (0x02000004#32) = headerWord 2#8 0#16 4#8 := by decide
  simp only [isElaRecord, h, headerWord_inj, Bool.and_eq_true, beq_iff_eq, and_assoc]

/-- A record of type 0 with `LL` payload bytes is a Data record. -/
theorem classify_data (bc : Byte) (addr : Half) (pay : List Byte) (h : pay.length = bc.toNat) :
    classify bc addr 0#8 pay = .recData bc addr pay := by
  simp [classify, (isDataRecord_iff bc addr 0#8 pay).2 ⟨rfl, h⟩]

/-- The fields of an ELA line make an ELA record. -/
theorem classify_ela (u : Half) : classify 2#8 0#16 4#8 [high8 u, low8 u] = .recEla u := by
  have h1 : isDataRecord 2#8 0#16 4#8 [high8 u, low8 u] = false := by
    rw [Bool.eq_false_iff]; intro h; exact absurd ((isDataRecord_iff ..).1 h).1 (by decide)
  have h2 : isEofRecord 2#8 0#16 4#8 [high8 u, low8 u] = false := by
    rw [Bool.eq_false_iff]; intro h; exact absurd ((isEofRecord_iff ..).1 h).1 (by decide)
  have h3 : isElaRecord 2#8 0#16 4#8 [high8 u, low8 u] = true := (isElaRecord_iff ..).2 ⟨rfl, rfl, rfl, rfl⟩
  simp [classify, h1, h2, h3]

theorem decodeLine_elaLine (u : Half) : decodeLine (elaLine u) = .ok (.recEla u) := by
  simp [elaLine, Config.elaByteCount, Config.tEla, classify_ela]

/-- Everything `classify` can answer, and when. -/
theorem classify_cases (bc : Byte) (addr : Half) (rt : Byte) (pay : List Byte) :
    (classify bc addr rt pay = .recData bc addr pay ∧ rt = 0#8 ∧ pay.length = bc.toNat) ∨
    (classify bc addr rt pay = .recEof ∧ bc = 0#8 ∧ addr = 0#16 ∧ rt = 1#8 ∧ pay = []) ∨
    (∃ u, classify bc addr rt pay = .recEla u ∧ bc = 2#8 ∧ addr = 0#16 ∧ rt = 4#8 ∧ pay = [high8 u, low8 u]) ∨
    (classify bc addr rt pay = .recGeneric bc addr rt pay ∧ Instr.wellFormed (.recGeneric bc addr rt pay) = true) := by
  unfold classify
  split
  · rename_i h; exact .inl ⟨rfl, (isDataRecord_iff ..).1 h⟩
  · split
    · rename_i h; exact .inr (.inl ⟨rfl, (isEofRecord_iff ..).1 h⟩)
    · split
      · rename_i h
        obtain ⟨h1, h2, h3, h4⟩ := (isElaRecord_iff ..).1 h
        match pay, h4 with
        | [hi, lo], _ => exact .inr (.inr (.inl ⟨hi ++ lo, by simp [h1, h2, h3]⟩))
      · rename_i h1 h2 h3
        refine .inr (.inr (.inr ⟨rfl, ?_⟩))
        simp [Instr.wellFormed, h1, h2, h3]

/-- A record whose payload has another length than its byte count belongs to no row but REC_GENERIC. -/
theorem classify_of_not_lengthsAgree {bc : Byte} {addr : Half} {rt : Byte} {pay : List Byte} (h : ¬ LengthsAgree bc pay) :
    classify bc addr rt pay = .recGeneric bc addr rt pay := by
  rcases classify_cases bc addr rt pay with ⟨_, -, h2⟩ | ⟨_, h1, -, -, h4⟩ | ⟨u, _, h1, -, -, h4⟩ | ⟨h', -⟩
  · exact absurd h2 h
  · exact absurd (by rw [h1, h4]; rfl) h
  · exact absurd (by rw [h1, h4]; rfl) h
  · exact h'

/-- The layout of R80 read backwards: a line that parses is the rendering of its fields. -/
theorem hexBytes_of_parse : ∀ (l : Line) (ds : List Nibble) (bs : List Byte),
    lineNibbles? l = some ds → nibblePairs? ds = some bs → l = hexBytes bs
  | [], ds, bs, h1, h2 => by
    simp [lineNibbles?] at h1; subst h1; simp [nibblePairs?] at h2; subst h2; rfl
  | [c], ds, bs, h1, h2 => by
    simp only [lineNibbles?] at h1
    cases hc : c.nibble? <;> simp_all
    subst h1; simp [nibblePairs?] at h2
  | c1 :: c2 :: l, ds, bs, h1, h2 => by
    simp only [lineNibbles?] at h1
    cases hc1 : c1.nibble? with
    | none => simp [hc1] at h1
    | some d1 => 
      cases hc2 : c2.nibble? with
      | none => simp [hc2] at h1
      | some d2 => 
        cases hl : lineNibbles? l with
        | none => simp [hc1, hc2, hl] at h1
        | some ds' => 
          simp [hc1, hc2, hl] at h1
          subst h1
          simp only [nibblePairs?] at h2
          cases hn : nibblePairs? ds' with
          | none => simp [hn] at h2
          | some bs' =>
            simp [hn] at h2
            subst h2
            simp [hexBytes, hex2, hexBytes_of_parse l ds' bs' hl hn, hexDigit_of_nibble? _ _ hc1, hexDigit_of_nibble? _ _ hc2]

theorem parseLine_inv {l : Line} {r : RecordFields} (h : parseLine l = .ok r) :
    l = recordLine r.bc r.addr r.rt r.pay r.chk := by
  unfold parseLine at h
  split at h
  · rename_i rest
    split at h
    · cases h
    · rename_i ds hds
      split at h
      · cases h
      · rename_i bc hi lo rt b bs hp
        have := hexBytes_of_parse _ _ _ hds hp
        simp only [Except.ok.injEq] at h
        subst h
        rw [recordLine_eq, this]
        simp [List.dropLast_concat_getLast]
      · cases h
  · cases h

end Sys2Proof
end

