-- ==== Sys2Proof/Laws/Block.lean ====
section
/-! SUPPORT. The terms of the closed form (spec/42_block_encoder.md rule R170) as numbers, and what the decoder reads from its lines. -/

namespace Sys2Proof.Block

theorem splitUpper_toNat (a : Addr) : (splitUpper a).toNat = a.toNat / 65536 := by
  have := a.isLt
  simp [splitUpper, Nat.shiftRight_eq_div_pow]
  omega

theorem splitLower_toNat (a : Addr) : (splitLower a).toNat = a.toNat % 65536 := by
  simp [splitLower]

theorem lt_chunkCount {n k : Nat} : k < chunkCount n ↔ 32 * k < n := by
  unfold chunkCount
  omega

theorem chunkAddr_lt {a : Addr} {n k : Nat} (hr : a.toNat + n ≤ 2 ^ 32) (hk : k < chunkCount n) : chunkAddr a k < 2 ^ 32 := by
  have := lt_chunkCount.1 hk
  unfold chunkAddr
  omega

theorem chunkBank_toNat {a : Addr} {k : Nat} (h : chunkAddr a k < 2 ^ 32) : (chunkBank a k).toNat = chunkAddr a k / 65536 := by
  unfold chunkBank
  rw [splitUpper_toNat, BitVec.toNat_ofNat, Nat.mod_eq_of_lt h]

theorem chunkLower_toNat {a : Addr} {k : Nat} (h : chunkAddr a k < 2 ^ 32) : (chunkLower a k).toNat = chunkAddr a k % 65536 := by
  unfold chunkLower
  rw [splitLower_toNat, BitVec.toNat_ofNat, Nat.mod_eq_of_lt h]

theorem chunkBytes_length (d : List Byte) (k : Nat) : (chunkBytes d k).length = chunkLen d.length k := by
  simp [chunkBytes, chunkLen]

theorem chunkLen_toNat (n k : Nat) : (BitVec.ofNat 8 (chunkLen n k)).toNat = chunkLen n k := by
  rw [BitVec.toNat_ofNat]
  unfold chunkLen
  omega

theorem decodeLine_dataLine (a : Addr) (d : List Byte) (k : Nat) :
    decodeLine (dataLine a d k)
      = .ok (.recData (BitVec.ofNat 8 (chunkLen d.length k)) (chunkLower a k) (chunkBytes d k)) := by
  rw [dataLine, decodeLine_formatLine, classify_data]
  rw [chunkBytes_length, chunkLen_toNat]

@[simp] theorem elaBank?_elaLine (u : Half) : elaBank? (elaLine u) = some u := by
  simp [elaBank?, decodeLine_elaLine]

@[simp] theorem elaBank?_dataLine (a : Addr) (d : List Byte) (k : Nat) : elaBank? (dataLine a d k) = none := by
  simp [elaBank?, decodeLine_dataLine]

@[simp] theorem elaBank?_eofLine : elaBank? eofLine = none := by
  simp [elaBank?, decodeLine_eofLine]

@[simp] theorem dataPayload?_elaLine (u : Half) : dataPayload? (elaLine u) = none := by
  simp [dataPayload?, decodeLine_elaLine]

@[simp] theorem dataPayload?_dataLine (a : Addr) (d : List Byte) (k : Nat) :
    dataPayload? (dataLine a d k) = some (chunkBytes d k) := by
  simp [dataPayload?, decodeLine_dataLine]

@[simp] theorem dataPayload?_eofLine : dataPayload? eofLine = none := by
  simp [dataPayload?, decodeLine_eofLine]

/-- Every line of the first k iterations is the Data line or the ELA line of one of them. -/
theorem mem_linesUpTo {a : Addr} {d : List Byte} {k : Nat} {l : Line} (h : l ∈ linesUpTo a d k) :
    ∃ j, j < k ∧ (l = dataLine a d j ∨ l = elaLine (chunkBank a j) ∧ chunkBank a j ≠ bankBefore a j) := by
  induction k with
  | zero => simp [linesUpTo] at h
  | succ k ih =>
    rw [linesUpTo, List.mem_append] at h
    rcases h with h | h
    · obtain ⟨j, hj, h⟩ := ih h
      exact ⟨j, by omega, h⟩
    · refine ⟨k, by omega, ?_⟩
      unfold chunkLines elaLines at h
      split at h <;> simp at h
      · rename_i hb
        rcases h with h | h
        · exact .inr ⟨h, hb⟩
        · exact .inl h
      · exact .inl h

end Sys2Proof.Block
end

