-- ==== Sys2Proof/Laws/State.lean ====
section
/-! SUPPORT. One lemma per field per update of State, each true by unfolding, so that no later proof unfolds an update. -/

namespace Sys2Proof.Machine

@[simp] theorem State.emit_phase (s : State) (l : Line) : (s.emit l).phase = s.phase := rfl
@[simp] theorem State.emit_op (s : State) (l : Line) : (s.emit l).op = s.op := rfl
@[simp] theorem State.emit_start (s : State) (l : Line) : (s.emit l).start = s.start := rfl
@[simp] theorem State.emit_data (s : State) (l : Line) : (s.emit l).data = s.data := rfl
@[simp] theorem State.emit_offset (s : State) (l : Line) : (s.emit l).offset = s.offset := rfl
@[simp] theorem State.emit_bank (s : State) (l : Line) : (s.emit l).bank = s.bank := rfl
@[simp] theorem State.emit_out (s : State) (l : Line) : (s.emit l).out = s.out ++ [l] := rfl
@[simp] theorem State.emit_fmt (s : State) (l : Line) : (s.emit l).fmt = s.fmt := rfl
@[simp] theorem State.emit_eUpper (s : State) (l : Line) : (s.emit l).eUpper = s.eUpper := rfl
@[simp] theorem State.emit_host (s : State) (l : Line) : (s.emit l).host = s.host := rfl
@[simp] theorem State.emit_free (s : State) (l : Line) : (s.emit l).free = s.free := rfl

@[simp] theorem State.finish_phase (s : State) : s.finish.phase = .done := rfl
@[simp] theorem State.finish_op (s : State) : s.finish.op = s.op := rfl
@[simp] theorem State.finish_start (s : State) : s.finish.start = s.start := rfl
@[simp] theorem State.finish_data (s : State) : s.finish.data = s.data := rfl
@[simp] theorem State.finish_offset (s : State) : s.finish.offset = s.offset := rfl
@[simp] theorem State.finish_bank (s : State) : s.finish.bank = s.bank := rfl
@[simp] theorem State.finish_out (s : State) : s.finish.out = s.out := rfl
@[simp] theorem State.finish_fmt (s : State) : s.finish.fmt = s.fmt := rfl
@[simp] theorem State.finish_eUpper (s : State) : s.finish.eUpper = s.eUpper := rfl
@[simp] theorem State.finish_host (s : State) : s.finish.host = s.host := rfl
@[simp] theorem State.finish_free (s : State) : s.finish.free = s.free := rfl

@[simp] theorem State.advance_phase (s : State) (n : Nat) : (s.advance n).phase = s.phase := rfl
@[simp] theorem State.advance_op (s : State) (n : Nat) : (s.advance n).op = s.op := rfl
@[simp] theorem State.advance_start (s : State) (n : Nat) : (s.advance n).start = s.start := rfl
@[simp] theorem State.advance_data (s : State) (n : Nat) : (s.advance n).data = s.data := rfl
@[simp] theorem State.advance_offset (s : State) (n : Nat) : (s.advance n).offset = s.offset + n := rfl
@[simp] theorem State.advance_bank (s : State) (n : Nat) : (s.advance n).bank = s.bank := rfl
@[simp] theorem State.advance_out (s : State) (n : Nat) : (s.advance n).out = s.out := rfl
@[simp] theorem State.advance_fmt (s : State) (n : Nat) : (s.advance n).fmt = s.fmt := rfl
@[simp] theorem State.advance_eUpper (s : State) (n : Nat) : (s.advance n).eUpper = s.eUpper := rfl
@[simp] theorem State.advance_host (s : State) (n : Nat) : (s.advance n).host = s.host := rfl
@[simp] theorem State.advance_free (s : State) (n : Nat) : (s.advance n).free = s.free := rfl

@[simp] theorem State.setBank_phase (s : State) (b : Half) : (s.setBank b).phase = s.phase := rfl
@[simp] theorem State.setBank_op (s : State) (b : Half) : (s.setBank b).op = s.op := rfl
@[simp] theorem State.setBank_start (s : State) (b : Half) : (s.setBank b).start = s.start := rfl
@[simp] theorem State.setBank_data (s : State) (b : Half) : (s.setBank b).data = s.data := rfl
@[simp] theorem State.setBank_offset (s : State) (b : Half) : (s.setBank b).offset = s.offset := rfl
@[simp] theorem State.setBank_bank (s : State) (b : Half) : (s.setBank b).bank = b := rfl
@[simp] theorem State.setBank_out (s : State) (b : Half) : (s.setBank b).out = s.out := rfl
@[simp] theorem State.setBank_fmt (s : State) (b : Half) : (s.setBank b).fmt = s.fmt := rfl
@[simp] theorem State.setBank_eUpper (s : State) (b : Half) : (s.setBank b).eUpper = s.eUpper := rfl
@[simp] theorem State.setBank_host (s : State) (b : Half) : (s.setBank b).host = s.host := rfl
@[simp] theorem State.setBank_free (s : State) (b : Half) : (s.setBank b).free = s.free := rfl

@[simp] theorem State.loadFormatter_phase (s : State) (bc : Byte) (addr : Half) (rt : Byte) (pay : List Byte) : (s.loadFormatter bc addr rt pay).phase = s.phase := rfl
@[simp] theorem State.loadFormatter_op (s : State) (bc : Byte) (addr : Half) (rt : Byte) (pay : List Byte) : (s.loadFormatter bc addr rt pay).op = s.op := rfl
@[simp] theorem State.loadFormatter_start (s : State) (bc : Byte) (addr : Half) (rt : Byte) (pay : List Byte) : (s.loadFormatter bc addr rt pay).start = s.start := rfl
@[simp] theorem State.loadFormatter_data (s : State) (bc : Byte) (addr : Half) (rt : Byte) (pay : List Byte) : (s.loadFormatter bc addr rt pay).data = s.data := rfl
@[simp] theorem State.loadFormatter_offset (s : State) (bc : Byte) (addr : Half) (rt : Byte) (pay : List Byte) : (s.loadFormatter bc addr rt pay).offset = s.offset := rfl
@[simp] theorem State.loadFormatter_bank (s : State) (bc : Byte) (addr : Half) (rt : Byte) (pay : List Byte) : (s.loadFormatter bc addr rt pay).bank = s.bank := rfl
@[simp] theorem State.loadFormatter_out (s : State) (bc : Byte) (addr : Half) (rt : Byte) (pay : List Byte) : (s.loadFormatter bc addr rt pay).out = s.out := rfl
@[simp] theorem State.loadFormatter_fmt (s : State) (bc : Byte) (addr : Half) (rt : Byte) (pay : List Byte) : (s.loadFormatter bc addr rt pay).fmt = { s.fmt with bc := bc, addr := addr, rt := rt, pay := pay } := rfl
@[simp] theorem State.loadFormatter_eUpper (s : State) (bc : Byte) (addr : Half) (rt : Byte) (pay : List Byte) : (s.loadFormatter bc addr rt pay).eUpper = s.eUpper := rfl
@[simp] theorem State.loadFormatter_host (s : State) (bc : Byte) (addr : Half) (rt : Byte) (pay : List Byte) : (s.loadFormatter bc addr rt pay).host = s.host := rfl
@[simp] theorem State.loadFormatter_free (s : State) (bc : Byte) (addr : Half) (rt : Byte) (pay : List Byte) : (s.loadFormatter bc addr rt pay).free = s.free := rfl

@[simp] theorem State.sumFormatter_phase (s : State) : s.sumFormatter.phase = s.phase := rfl
@[simp] theorem State.sumFormatter_op (s : State) : s.sumFormatter.op = s.op := rfl
@[simp] theorem State.sumFormatter_start (s : State) : s.sumFormatter.start = s.start := rfl
@[simp] theorem State.sumFormatter_data (s : State) : s.sumFormatter.data = s.data := rfl
@[simp] theorem State.sumFormatter_offset (s : State) : s.sumFormatter.offset = s.offset := rfl
@[simp] theorem State.sumFormatter_bank (s : State) : s.sumFormatter.bank = s.bank := rfl
@[simp] theorem State.sumFormatter_out (s : State) : s.sumFormatter.out = s.out := rfl
@[simp] theorem State.sumFormatter_fmt (s : State) : s.sumFormatter.fmt = { s.fmt with sum := sum8 s.fmt.bc s.fmt.addr s.fmt.rt s.fmt.pay } := rfl
@[simp] theorem State.sumFormatter_eUpper (s : State) : s.sumFormatter.eUpper = s.eUpper := rfl
@[simp] theorem State.sumFormatter_host (s : State) : s.sumFormatter.host = s.host := rfl
@[simp] theorem State.sumFormatter_free (s : State) : s.sumFormatter.free = s.free := rfl

@[simp] theorem State.checkFormatter_phase (s : State) : s.checkFormatter.phase = s.phase := rfl
@[simp] theorem State.checkFormatter_op (s : State) : s.checkFormatter.op = s.op := rfl
@[simp] theorem State.checkFormatter_start (s : State) : s.checkFormatter.start = s.start := rfl
@[simp] theorem State.checkFormatter_data (s : State) : s.checkFormatter.data = s.data := rfl
@[simp] theorem State.checkFormatter_offset (s : State) : s.checkFormatter.offset = s.offset := rfl
@[simp] theorem State.checkFormatter_bank (s : State) : s.checkFormatter.bank = s.bank := rfl
@[simp] theorem State.checkFormatter_out (s : State) : s.checkFormatter.out = s.out := rfl
@[simp] theorem State.checkFormatter_fmt (s : State) : s.checkFormatter.fmt = { s.fmt with chk := negate8 s.fmt.sum } := rfl
@[simp] theorem State.checkFormatter_eUpper (s : State) : s.checkFormatter.eUpper = s.eUpper := rfl
@[simp] theorem State.checkFormatter_host (s : State) : s.checkFormatter.host = s.host := rfl
@[simp] theorem State.checkFormatter_free (s : State) : s.checkFormatter.free = s.free := rfl

@[simp] theorem State.loadEmitter_phase (s : State) (u : Half) : (s.loadEmitter u).phase = s.phase := rfl
@[simp] theorem State.loadEmitter_op (s : State) (u : Half) : (s.loadEmitter u).op = s.op := rfl
@[simp] theorem State.loadEmitter_start (s : State) (u : Half) : (s.loadEmitter u).start = s.start := rfl
@[simp] theorem State.loadEmitter_data (s : State) (u : Half) : (s.loadEmitter u).data = s.data := rfl
@[simp] theorem State.loadEmitter_offset (s : State) (u : Half) : (s.loadEmitter u).offset = s.offset := rfl
@[simp] theorem State.loadEmitter_bank (s : State) (u : Half) : (s.loadEmitter u).bank = s.bank := rfl
@[simp] theorem State.loadEmitter_out (s : State) (u : Half) : (s.loadEmitter u).out = s.out := rfl
@[simp] theorem State.loadEmitter_fmt (s : State) (u : Half) : (s.loadEmitter u).fmt = s.fmt := rfl
@[simp] theorem State.loadEmitter_eUpper (s : State) (u : Half) : (s.loadEmitter u).eUpper = u := rfl
@[simp] theorem State.loadEmitter_host (s : State) (u : Half) : (s.loadEmitter u).host = s.host := rfl
@[simp] theorem State.loadEmitter_free (s : State) (u : Half) : (s.loadEmitter u).free = s.free := rfl

@[simp] theorem State.releaseEmitter_phase (s : State) : s.releaseEmitter.phase = s.phase := rfl
@[simp] theorem State.releaseEmitter_op (s : State) : s.releaseEmitter.op = s.op := rfl
@[simp] theorem State.releaseEmitter_start (s : State) : s.releaseEmitter.start = s.start := rfl
@[simp] theorem State.releaseEmitter_data (s : State) : s.releaseEmitter.data = s.data := rfl
@[simp] theorem State.releaseEmitter_offset (s : State) : s.releaseEmitter.offset = s.offset := rfl
@[simp] theorem State.releaseEmitter_bank (s : State) : s.releaseEmitter.bank = s.bank := rfl
@[simp] theorem State.releaseEmitter_out (s : State) : s.releaseEmitter.out = s.out := rfl
@[simp] theorem State.releaseEmitter_fmt (s : State) : s.releaseEmitter.fmt = s.fmt := rfl
@[simp] theorem State.releaseEmitter_eUpper (s : State) : s.releaseEmitter.eUpper = Config.freeEUpper s.free := rfl
@[simp] theorem State.releaseEmitter_host (s : State) : s.releaseEmitter.host = s.host := rfl
@[simp] theorem State.releaseEmitter_free (s : State) : s.releaseEmitter.free = s.free + 1 := rfl

@[simp] theorem State.releaseFormatter_phase (s : State) : s.releaseFormatter.phase = s.phase := rfl
@[simp] theorem State.releaseFormatter_op (s : State) : s.releaseFormatter.op = s.op := rfl
@[simp] theorem State.releaseFormatter_start (s : State) : s.releaseFormatter.start = s.start := rfl
@[simp] theorem State.releaseFormatter_data (s : State) : s.releaseFormatter.data = s.data := rfl
@[simp] theorem State.releaseFormatter_offset (s : State) : s.releaseFormatter.offset = s.offset := rfl
@[simp] theorem State.releaseFormatter_bank (s : State) : s.releaseFormatter.bank = s.bank := rfl
@[simp] theorem State.releaseFormatter_out (s : State) : s.releaseFormatter.out = s.out := rfl
@[simp] theorem State.releaseFormatter_fmt (s : State) : s.releaseFormatter.fmt = { bc := Config.freeFBc s.free, addr := Config.freeFAddr s.free, rt := Config.freeFRt s.free, pay := Config.freeFPay s.free, sum := Config.freeFSum s.free, chk := Config.freeFChk s.free } := rfl
@[simp] theorem State.releaseFormatter_eUpper (s : State) : s.releaseFormatter.eUpper = s.eUpper := rfl
@[simp] theorem State.releaseFormatter_host (s : State) : s.releaseFormatter.host = s.host := rfl
@[simp] theorem State.releaseFormatter_free (s : State) : s.releaseFormatter.free = s.free + 1 := rfl

@[simp] theorem State.startPass_phase (s : State) (o : Op) : (s.startPass o).phase = .run := rfl
@[simp] theorem State.startPass_op (s : State) (o : Op) : (s.startPass o).op = o := rfl
@[simp] theorem State.startPass_start (s : State) (o : Op) : (s.startPass o).start = s.start := rfl
@[simp] theorem State.startPass_data (s : State) (o : Op) : (s.startPass o).data = s.data := rfl
@[simp] theorem State.startPass_offset (s : State) (o : Op) : (s.startPass o).offset = s.offset := rfl
@[simp] theorem State.startPass_bank (s : State) (o : Op) : (s.startPass o).bank = s.bank := rfl
@[simp] theorem State.startPass_out (s : State) (o : Op) : (s.startPass o).out = [] := rfl
@[simp] theorem State.startPass_fmt (s : State) (o : Op) : (s.startPass o).fmt = s.fmt := rfl
@[simp] theorem State.startPass_eUpper (s : State) (o : Op) : (s.startPass o).eUpper = s.eUpper := rfl
@[simp] theorem State.startPass_host (s : State) (o : Op) : (s.startPass o).host = s.host := rfl
@[simp] theorem State.startPass_free (s : State) (o : Op) : (s.startPass o).free = s.free := rfl

@[simp] theorem State.loadEncode_phase (s : State) (a : Addr) (d : List Byte) : (s.loadEncode a d).phase = s.phase := rfl
@[simp] theorem State.loadEncode_op (s : State) (a : Addr) (d : List Byte) : (s.loadEncode a d).op = s.op := rfl
@[simp] theorem State.loadEncode_start (s : State) (a : Addr) (d : List Byte) : (s.loadEncode a d).start = a := rfl
@[simp] theorem State.loadEncode_data (s : State) (a : Addr) (d : List Byte) : (s.loadEncode a d).data = d := rfl
@[simp] theorem State.loadEncode_offset (s : State) (a : Addr) (d : List Byte) : (s.loadEncode a d).offset = 0 := rfl
@[simp] theorem State.loadEncode_bank (s : State) (a : Addr) (d : List Byte) : (s.loadEncode a d).bank = 0#16 := rfl
@[simp] theorem State.loadEncode_out (s : State) (a : Addr) (d : List Byte) : (s.loadEncode a d).out = s.out := rfl
@[simp] theorem State.loadEncode_fmt (s : State) (a : Addr) (d : List Byte) : (s.loadEncode a d).fmt = s.fmt := rfl
@[simp] theorem State.loadEncode_eUpper (s : State) (a : Addr) (d : List Byte) : (s.loadEncode a d).eUpper = s.eUpper := rfl
@[simp] theorem State.loadEncode_host (s : State) (a : Addr) (d : List Byte) : (s.loadEncode a d).host = s.host := rfl
@[simp] theorem State.loadEncode_free (s : State) (a : Addr) (d : List Byte) : (s.loadEncode a d).free = s.free := rfl

@[simp] theorem State.applyReset_phase (s : State) : s.applyReset.phase = .idle := rfl
@[simp] theorem State.applyReset_op (s : State) : s.applyReset.op = .encode := rfl
@[simp] theorem State.applyReset_start (s : State) : s.applyReset.start = 0#32 := rfl
@[simp] theorem State.applyReset_data (s : State) : s.applyReset.data = [] := rfl
@[simp] theorem State.applyReset_offset (s : State) : s.applyReset.offset = 0 := rfl
@[simp] theorem State.applyReset_bank (s : State) : s.applyReset.bank = 0#16 := rfl
@[simp] theorem State.applyReset_out (s : State) : s.applyReset.out = [] := rfl
@[simp] theorem State.applyReset_fmt (s : State) : s.applyReset.fmt = { bc := 0#8, addr := 0#16, rt := 0#8, pay := [], sum := 0#8, chk := 0#8 } := rfl
@[simp] theorem State.applyReset_eUpper (s : State) : s.applyReset.eUpper = 0#16 := rfl
@[simp] theorem State.applyReset_host (s : State) : s.applyReset.host = s.host := rfl
@[simp] theorem State.applyReset_free (s : State) : s.applyReset.free = s.free := rfl

@[simp] theorem State.withHost_phase (s : State) (r : List HostMove) : (s.withHost r).phase = s.phase := rfl
@[simp] theorem State.withHost_op (s : State) (r : List HostMove) : (s.withHost r).op = s.op := rfl
@[simp] theorem State.withHost_start (s : State) (r : List HostMove) : (s.withHost r).start = s.start := rfl
@[simp] theorem State.withHost_data (s : State) (r : List HostMove) : (s.withHost r).data = s.data := rfl
@[simp] theorem State.withHost_offset (s : State) (r : List HostMove) : (s.withHost r).offset = s.offset := rfl
@[simp] theorem State.withHost_bank (s : State) (r : List HostMove) : (s.withHost r).bank = s.bank := rfl
@[simp] theorem State.withHost_out (s : State) (r : List HostMove) : (s.withHost r).out = s.out := rfl
@[simp] theorem State.withHost_fmt (s : State) (r : List HostMove) : (s.withHost r).fmt = s.fmt := rfl
@[simp] theorem State.withHost_eUpper (s : State) (r : List HostMove) : (s.withHost r).eUpper = s.eUpper := rfl
@[simp] theorem State.withHost_host (s : State) (r : List HostMove) : (s.withHost r).host = r := rfl
@[simp] theorem State.withHost_free (s : State) (r : List HostMove) : (s.withHost r).free = s.free := rfl

end Sys2Proof.Machine
end

