-- ==== Sys2Proof/Laws/Flags.lean ====
section
/-! SUPPORT. The derived values and predicates as facts about the registers (spec/10_state.md rules R28, R29). -/

namespace Sys2Proof.Machine

theorem State.curInRange_iff (s : State) : s.curInRange = true ↔ s.start.toNat + s.offset < 2 ^ 32 := decide_eq_true_iff

theorem State.more_iff (s : State) : s.more = true ↔ s.offset < s.data.length := decide_eq_true_iff

theorem State.bankMiss_iff (s : State) : s.bankMiss = true ↔ s.upper ≠ s.bank := decide_eq_true_iff

theorem State.more_eq_false (s : State) : s.more = false ↔ s.data.length ≤ s.offset := by
  rw [← Bool.not_eq_true, State.more_iff, Nat.not_lt]

theorem State.bankMiss_eq_false (s : State) : s.bankMiss = false ↔ s.upper = s.bank := by
  rw [← Bool.not_eq_true, State.bankMiss_iff, not_not]

theorem State.chunk_eq (s : State) : s.chunk = min 32 (s.data.length - s.offset) := rfl

/-- CHUNK fits the 8-bit byte count (R162). -/
theorem State.chunk_toNat (s : State) : (BitVec.ofNat 8 s.chunk).toNat = s.chunk := by
  rw [State.chunk_eq, BitVec.toNat_ofNat]
  omega

/-- The chunk read has CHUNK bytes (R165: the internal FORMAT is always well-formed). -/
theorem State.memRead_length (s : State) : (s.memRead s.offset s.chunk).length = s.chunk := by
  rw [State.chunk_eq]
  simp [State.memRead]

end Sys2Proof.Machine
end

