-- ==== Sys2Proof/Laws/Ops.lean ====
section
/-! SUPPORT. What each shared operation can do, said once: emission through the formatter and the emitter, the guards of commands and
records, and the two ways a step is chosen. -/

namespace Sys2Proof.Machine

/-- Emission through the formatter appends FORMAT's line and leaves free values in the latches; nothing else changes. -/
theorem State.emitFormat_eq (s : State) (bc : Byte) (addr : Half) (rt : Byte) (pay : List Byte) :
    s.emitFormat bc addr rt pay = (s.releaseFormatter).emit (formatLine bc addr rt pay) := rfl

/-- Emission through the emitter appends EMIT_ELA's line; only latches change besides. -/
theorem State.emitEla_eq (s : State) (u : Half) :
    s.emitEla u = ((s.releaseFormatter).releaseEmitter).emit (elaLine u) := rfl

@[simp] theorem State.emitFormat_out (s : State) (bc : Byte) (addr : Half) (rt : Byte) (pay : List Byte) :
    (s.emitFormat bc addr rt pay).out = s.out ++ [formatLine bc addr rt pay] := rfl
@[simp] theorem State.emitEla_out (s : State) (u : Half) : (s.emitEla u).out = s.out ++ [elaLine u] := by simp [State.emitEla_eq]
@[simp] theorem State.emitFormat_phase (s : State) (bc : Byte) (addr : Half) (rt : Byte) (pay : List Byte) :
    (s.emitFormat bc addr rt pay).phase = s.phase := by simp [State.emitFormat_eq]
@[simp] theorem State.emitFormat_op (s : State) (bc : Byte) (addr : Half) (rt : Byte) (pay : List Byte) :
    (s.emitFormat bc addr rt pay).op = s.op := by simp [State.emitFormat_eq]
@[simp] theorem State.emitFormat_start (s : State) (bc : Byte) (addr : Half) (rt : Byte) (pay : List Byte) :
    (s.emitFormat bc addr rt pay).start = s.start := by simp [State.emitFormat_eq]
@[simp] theorem State.emitFormat_data (s : State) (bc : Byte) (addr : Half) (rt : Byte) (pay : List Byte) :
    (s.emitFormat bc addr rt pay).data = s.data := by simp [State.emitFormat_eq]
@[simp] theorem State.emitFormat_offset (s : State) (bc : Byte) (addr : Half) (rt : Byte) (pay : List Byte) :
    (s.emitFormat bc addr rt pay).offset = s.offset := by simp [State.emitFormat_eq]
@[simp] theorem State.emitFormat_bank (s : State) (bc : Byte) (addr : Half) (rt : Byte) (pay : List Byte) :
    (s.emitFormat bc addr rt pay).bank = s.bank := by simp [State.emitFormat_eq]
@[simp] theorem State.emitFormat_eUpper (s : State) (bc : Byte) (addr : Half) (rt : Byte) (pay : List Byte) :
    (s.emitFormat bc addr rt pay).eUpper = s.eUpper := by simp [State.emitFormat_eq]
@[simp] theorem State.emitFormat_host (s : State) (bc : Byte) (addr : Half) (rt : Byte) (pay : List Byte) :
    (s.emitFormat bc addr rt pay).host = s.host := by simp [State.emitFormat_eq]
@[simp] theorem State.emitEla_phase (s : State) (u : Half) : (s.emitEla u).phase = s.phase := by simp [State.emitEla_eq]
@[simp] theorem State.emitEla_op (s : State) (u : Half) : (s.emitEla u).op = s.op := by simp [State.emitEla_eq]
@[simp] theorem State.emitEla_start (s : State) (u : Half) : (s.emitEla u).start = s.start := by simp [State.emitEla_eq]
@[simp] theorem State.emitEla_data (s : State) (u : Half) : (s.emitEla u).data = s.data := by simp [State.emitEla_eq]
@[simp] theorem State.emitEla_offset (s : State) (u : Half) : (s.emitEla u).offset = s.offset := by simp [State.emitEla_eq]
@[simp] theorem State.emitEla_bank (s : State) (u : Half) : (s.emitEla u).bank = s.bank := by simp [State.emitEla_eq]
@[simp] theorem State.emitEla_host (s : State) (u : Half) : (s.emitEla u).host = s.host := by simp [State.emitEla_eq]

/-- A record step answers a next state exactly when it is the enabled one. -/
theorem State.ifDue_next (s t : State) (i : Instr) (k : State → State) :
    s.ifDue i k = .next t ↔ s.due = some i ∧ k s = t := by
  unfold State.ifDue
  split <;> simp_all

theorem State.ifDue_of_due (s : State) (i : Instr) (k : State → State) (h : s.due = some i) :
    s.ifDue i k = .next (k s) := by
  simp [State.ifDue, h]

theorem State.ifStartable_of_ne (s : State) (k : State → Result) (h : s.phase ≠ .run) : s.ifStartable k = k s := by
  unfold State.ifStartable
  cases hp : s.phase <;> simp_all

theorem State.ifStartable_of_run (s : State) (k : State → Result) (h : s.phase = .run) :
    s.ifStartable k = .refused .passRunning := by
  simp [State.ifStartable, h]

/-- While a pass runs a step is the enabled record's meaning. -/
theorem step_of_due (s : State) (i : Instr) (hp : s.phase = .run) (hd : s.due = some i) : step s = exec i s := by
  simp [step, hp, hd]

/-- While no pass runs a step takes the command the host presents next. -/
theorem step_of_present (s : State) (c : Cmd) (rest : List HostMove) (hp : s.phase ≠ .run)
    (hh : s.host = .present c :: rest) : step s = exec (decodeCmd c) (s.withHost rest) := by
  unfold step
  cases h : s.phase <;> simp_all

/-- A record is due only while a pass runs. -/
theorem State.phase_of_due {s : State} {i : Instr} (h : s.due = some i) : s.phase = .run := by
  unfold State.due at h
  cases hp : s.phase <;> simp_all

end Sys2Proof.Machine
end

