-- ==== Sys2Proof/Laws/PerInstr.lean ====
section
/-! SUPPORT. For every instruction: if its code is a line, the line begins with `:`, has an odd number of characters and at least the eleven
of R80; if its code is a command, the command's select is the row's (R100). One lemma per constructor of Instr. -/

namespace Sys2Proof.Laws.CodeForm

/-- The select code of a command row (R100), none for a record row. -/
def rowSelect : Instr → Option (BitVec 2)
  | .encode _ _ => some 0#2
  | .format _ _ _ _ => some 1#2
  | .emitEla _ => some 2#2
  | .reservedSelect11 => some 3#2
  | .recData _ _ _ => none
  | .recEof => none
  | .recEla _ => none
  | .recGeneric _ _ _ _ => none

def Statement (i : Instr) : Prop :=
  (∀ c, Sys2Proof.encode i = .cmd c → rowSelect i = some c.select) ∧
  (∀ l, Sys2Proof.encode i = .line l → rowSelect i = none ∧ l.head? = some .colon ∧ l.length % 2 = 1 ∧ 11 ≤ l.length)

/-- The form of every line FORMAT makes (R80, R82). -/
theorem formatLine_form (bc : Byte) (addr : Half) (rt : Byte) (pay : List Byte) :
    (formatLine bc addr rt pay).head? = some .colon ∧ (formatLine bc addr rt pay).length % 2 = 1 ∧
      11 ≤ (formatLine bc addr rt pay).length := by
  refine ⟨rfl, ?_, ?_⟩ <;> rw [formatLine_length] <;> omega

theorem encode (a : Addr) (d : List Byte) : Statement (.encode a d) :=
  ⟨fun _ h => by cases h; rfl, fun _ h => (nomatch h)⟩

theorem format (bc : Byte) (addr : Half) (rt : Byte) (pay : List Byte) : Statement (.format bc addr rt pay) :=
  ⟨fun _ h => by cases h; rfl, fun _ h => (nomatch h)⟩

theorem emitEla (u : Half) : Statement (.emitEla u) :=
  ⟨fun _ h => by cases h; rfl, fun _ h => (nomatch h)⟩

theorem reservedSelect11 : Statement .reservedSelect11 :=
  ⟨fun _ h => by cases h; rfl, fun _ h => (nomatch h)⟩

theorem recData (bc : Byte) (addr : Half) (pay : List Byte) : Statement (.recData bc addr pay) :=
  ⟨fun _ h => (nomatch h), fun _ h => by cases h; exact ⟨rfl, formatLine_form ..⟩⟩

theorem recEof : Statement .recEof :=
  ⟨fun _ h => (nomatch h), fun _ h => by cases h; exact ⟨rfl, rfl, by decide, by decide⟩⟩

theorem recEla (u : Half) : Statement (.recEla u) :=
  ⟨fun _ h => (nomatch h), fun _ h => by cases h; exact ⟨rfl, formatLine_form ..⟩⟩

theorem recGeneric (bc : Byte) (addr : Half) (rt : Byte) (pay : List Byte) : Statement (.recGeneric bc addr rt pay) :=
  ⟨fun _ h => (nomatch h), fun _ h => by cases h; exact ⟨rfl, formatLine_form ..⟩⟩

end Sys2Proof.Laws.CodeForm
end

