-- ==== Sys2Proof/Laws/Reader.lean ====
section
/-! SUPPORT. The laws of the reader's image: every operation keeps the canonical form, and what a read gives after a write. -/

namespace Sys2Proof.Reader

theorem allAbove_of_le {a b : Nat} {m : Image} (h : a ≤ b) (hm : allAbove b m = true) : allAbove a m = true := by
  induction m with
  | nil => rfl
  | cons x m ih => simp [allAbove] at hm ⊢; exact ⟨by omega, ih hm.2⟩

theorem allAbove_imageWrite {a x : Nat} {b : Byte} {m : Image} (hx : a < x) (hm : allAbove a m = true) : allAbove a (imageWrite m x b) = true := by
  induction m with
  | nil => simp [imageWrite, allAbove, hx]
  | cons y m ih => 
    simp [allAbove] at hm
    unfold imageWrite
    split
    · simp [allAbove, hx, hm]
    · split
      · simp [allAbove, hx, hm]
      · simp [allAbove, hm, ih]

theorem imageWf_imageWrite {x : Nat} {b : Byte} {m : Image} (hm : imageWf m = true) : imageWf (imageWrite m x b) = true := by
  induction m with
  | nil => rfl
  | cons y m ih => 
    obtain ⟨y, c⟩ := y
    simp [imageWf] at hm
    simp only [imageWrite]
    split
    · rename_i h; simp [imageWf, allAbove, h, hm, allAbove_of_le (Nat.le_of_lt h) hm.1]
    · split
      · rename_i h; subst h; simp [imageWf, hm]
      · simp [imageWf, ih hm.2]; exact allAbove_imageWrite (by omega) hm.1

theorem imageRead_of_allAbove {a x : Nat} {m : Image} (hm : allAbove a m = true) (h : x ≤ a) : imageRead m x = none := by
  induction m with
  | nil => rfl
  | cons y m ih => obtain ⟨y, c⟩ := y; simp [allAbove] at hm; simp [imageRead, ih hm.2]; omega

theorem imageRead_imageWrite {x y : Nat} {b : Byte} {m : Image} (hm : imageWf m = true) : imageRead (imageWrite m x b) y = if x = y then some b else imageRead m y := by
  induction m with
  | nil => simp [imageWrite, imageRead]
  | cons z m ih => 
    obtain ⟨z, c⟩ := z
    simp [imageWf] at hm
    simp only [imageWrite]
    split
    · simp [imageRead]
    · split
      · rename_i h1 h2; subst h2; simp only [imageRead]; split <;> rfl
      · rename_i h1 h2; simp only [imageRead, ih hm.2]; split
        · rename_i h; subst h; rw [if_neg h2]
        · rfl

theorem imageWf_imageWriteBytes {x : Nat} {bs : List Byte} {m : Image} (hm : imageWf m = true) : imageWf (imageWriteBytes m x bs) = true := by
  induction bs generalizing m x with
  | nil => exact hm
  | cons b bs ih => exact ih (imageWf_imageWrite hm)

theorem imageRead_imageWriteBytes {x y : Nat} {bs : List Byte} {m : Image} (hm : imageWf m = true) : imageRead (imageWriteBytes m x bs) y = if x ≤ y ∧ y < x + bs.length then bs[y - x]? else imageRead m y := by
  induction bs generalizing m x with
  | nil => simp [imageWriteBytes]
  | cons b bs ih => 
    rw [imageWriteBytes, ih (imageWf_imageWrite hm), imageRead_imageWrite hm, List.length_cons]
    by_cases h : x = y
    · subst h; simp
    · by_cases h2 : x + 1 ≤ y ∧ y < x + 1 + bs.length
      · rw [if_pos h2, if_pos (by omega)]
        rw [show y - x = (y - (x+1)) + 1 by omega, List.getElem?_cons_succ]
      · rw [if_neg h2, if_neg h, if_neg (by omega)]

end Sys2Proof.Reader
end

