-- ==== Sys2Proof/Laws/Step.lean ====
section
/-! SUPPORT. What a step can do, said once: which record is due, the next state of each record step, and the next state of each command. Every
claim about steps is a case analysis on `State.run_cases` (a pass runs) or on the host's next move. -/

namespace Sys2Proof.Machine

/-- The data step is the one enabled (R165). -/
theorem State.due_data {s : State} (hp : s.phase = .run) (ho : s.op = .encode) (hr : s.start.toNat + s.offset < 2 ^ 32)
    (hm : s.offset < s.data.length) (hb : s.upper = s.bank) :
    s.due = some (.recData (BitVec.ofNat 8 s.chunk) s.lower (s.memRead s.offset s.chunk)) := by
  simp only [State.due, hp, ho, State.dueEncode, (State.more_iff s).2 hm, (State.curInRange_iff s).2 hr,
    (State.bankMiss_eq_false s).2 hb]
  rfl

/-- The ELA step is the one enabled (R164). -/
theorem State.due_ela {s : State} (hp : s.phase = .run) (ho : s.op = .encode) (hr : s.start.toNat + s.offset < 2 ^ 32)
    (hm : s.offset < s.data.length) (hb : s.upper ≠ s.bank) : s.due = some (.recEla s.upper) := by
  simp only [State.due, hp, ho, State.dueEncode, (State.more_iff s).2 hm, (State.curInRange_iff s).2 hr,
    (State.bankMiss_iff s).2 hb]
  rfl

/-- The EOF step is the one enabled (R168). -/
theorem State.due_eof {s : State} (hp : s.phase = .run) (ho : s.op = .encode) (hm : s.data.length ≤ s.offset) :
    s.due = some .recEof := by
  simp only [State.due, hp, ho, State.dueEncode, (State.more_eq_false s).2 hm]
  rfl

theorem State.due_format {s : State} (hp : s.phase = .run) (ho : s.op = .format) :
    s.due = some (classify s.fmt.bc s.fmt.addr s.fmt.rt s.fmt.pay) := by
  simp only [State.due, hp, ho]

theorem State.due_emitEla {s : State} (hp : s.phase = .run) (ho : s.op = .emitEla) : s.due = some (.recEla s.eUpper) := by
  simp only [State.due, hp, ho]

/-- The situations of a running engine: the three steps of an ENCODE pass, a current address beyond the space, and the two other passes. -/
theorem State.run_cases (s : State) :
    (s.op = .encode ∧ s.start.toNat + s.offset < 2 ^ 32 ∧ s.offset < s.data.length ∧ s.upper = s.bank) ∨
    (s.op = .encode ∧ s.start.toNat + s.offset < 2 ^ 32 ∧ s.offset < s.data.length ∧ s.upper ≠ s.bank) ∨
    (s.op = .encode ∧ s.data.length ≤ s.offset) ∨
    (s.op = .encode ∧ 2 ^ 32 ≤ s.start.toNat + s.offset ∧ s.offset < s.data.length) ∨
    s.op = .format ∨ s.op = .emitEla := by
  cases ho : s.op
  · by_cases h1 : s.offset < s.data.length
    · by_cases h2 : s.start.toNat + s.offset < 2 ^ 32
      · by_cases h3 : s.upper = s.bank
        · exact .inl ⟨rfl, h2, h1, h3⟩
        · exact .inr (.inl ⟨rfl, h2, h1, h3⟩)
      · exact .inr (.inr (.inr (.inl ⟨rfl, by omega, h1⟩)))
    · exact .inr (.inr (.inl ⟨rfl, by omega⟩))
  · simp
  · simp

theorem exec_recData_encode {s : State} (hp : s.phase = .run) (ho : s.op = .encode) (hr : s.start.toNat + s.offset < 2 ^ 32)
    (hm : s.offset < s.data.length) (hb : s.upper = s.bank) :
    exec (.recData (BitVec.ofNat 8 s.chunk) s.lower (s.memRead s.offset s.chunk)) s
      = .next ((s.emitFormat (BitVec.ofNat 8 s.chunk) s.lower 0#8 (s.memRead s.offset s.chunk)).advance s.chunk) := by
  simp only [exec, execRecData]
  rw [State.ifDue_of_due _ _ _ (State.due_data hp ho hr hm hb)]
  simp only [ho, State.chunk_toNat, Config.tData]

theorem exec_recEla_encode {s : State} (hp : s.phase = .run) (ho : s.op = .encode) (hr : s.start.toNat + s.offset < 2 ^ 32)
    (hm : s.offset < s.data.length) (hb : s.upper ≠ s.bank) :
    exec (.recEla s.upper) s = .next ((s.emitEla s.upper).setBank s.upper) := by
  simp only [exec, execRecEla]
  rw [State.ifDue_of_due _ _ _ (State.due_ela hp ho hr hm hb)]
  simp only [ho]

theorem exec_recEof_encode {s : State} (hp : s.phase = .run) (ho : s.op = .encode) (hm : s.data.length ≤ s.offset) :
    exec .recEof s = .next (s.emit eofLine).finish := by
  simp only [exec, execRecEof]
  rw [State.ifDue_of_due _ _ _ (State.due_eof hp ho hm)]
  simp only [ho]

/-- A FORMAT pass emits its line under the row the line belongs to. -/
theorem exec_due_format {s : State} (hp : s.phase = .run) (ho : s.op = .format) :
    exec (classify s.fmt.bc s.fmt.addr s.fmt.rt s.fmt.pay) s
      = .next ((s.emitFormat s.fmt.bc s.fmt.addr s.fmt.rt s.fmt.pay).finish) := by
  have hd := State.due_format hp ho
  rcases classify_cases s.fmt.bc s.fmt.addr s.fmt.rt s.fmt.pay with
    ⟨h, h1, h2⟩ | ⟨h, h1, h2, h3, h4⟩ | ⟨u, h, h1, h2, h3, h4⟩ | ⟨h, -⟩
  · rw [h] at hd ⊢
    simp only [exec, execRecData, State.ifDue_of_due _ _ _ hd, ho, h1, Config.tData]
  · rw [h] at hd ⊢
    simp only [exec, execRecEof, State.ifDue_of_due _ _ _ hd, ho, h1, h2, h3, h4, Config.tEof]
  · rw [h] at hd ⊢
    simp only [exec, execRecEla, State.ifDue_of_due _ _ _ hd, ho, h1, h2, h3, h4, Config.tEla, Config.elaByteCount]
  · rw [h]
    simp [exec, execRecGeneric, hp, ho]

theorem exec_recEla_emitEla {s : State} (hp : s.phase = .run) (ho : s.op = .emitEla) :
    exec (.recEla s.eUpper) s = .next ((s.emitEla s.eUpper).finish) := by
  simp only [exec, execRecEla]
  rw [State.ifDue_of_due _ _ _ (State.due_emitEla hp ho)]
  simp only [ho]

/-- Under REC_GENERIC a FORMAT pass emits its line whatever its fields are (R91, R119). -/
theorem exec_recGeneric_format {s : State} (hp : s.phase = .run) (ho : s.op = .format) :
    exec (.recGeneric s.fmt.bc s.fmt.addr s.fmt.rt s.fmt.pay) s
      = .next ((s.emitFormat s.fmt.bc s.fmt.addr s.fmt.rt s.fmt.pay).finish) := by
  simp [exec, execRecGeneric, hp, ho]

/-- The instructions that have a next state while a pass runs: the record that is due, and REC_GENERIC of the latches in a FORMAT pass. -/
theorem due_of_exec_next {s t : State} {i : Instr} (hp : s.phase = .run) (h : exec i s = .next t) :
    s.due = some i ∨ (s.op = .format ∧ i = .recGeneric s.fmt.bc s.fmt.addr s.fmt.rt s.fmt.pay) := by
  cases i with
  | encode a d => simp [exec, execEncode, State.ifStartable_of_run _ _ hp] at h
  | format bc addr rt pay => simp [exec, execFormat, State.ifStartable_of_run _ _ hp] at h
  | emitEla u => simp [exec, execEmitEla, State.ifStartable_of_run _ _ hp] at h
  | reservedSelect11 => simp [exec, execReservedSelect11] at h
  | recData bc addr pay =>
    simp only [exec, execRecData] at h
    exact .inl ((State.ifDue_next ..).1 h).1
  | recEof =>
    simp only [exec, execRecEof] at h
    exact .inl ((State.ifDue_next ..).1 h).1
  | recEla u =>
    simp only [exec, execRecEla] at h
    exact .inl ((State.ifDue_next ..).1 h).1
  | recGeneric bc addr rt pay =>
    simp only [exec, execRecGeneric] at h
    split at h
    · obtain ⟨-, ho, rfl, rfl, rfl, rfl⟩ := ‹_ ∧ _›
      exact .inr ⟨ho, rfl⟩
    · cases h

theorem step_run_data {s : State} (hp : s.phase = .run) (ho : s.op = .encode) (hr : s.start.toNat + s.offset < 2 ^ 32)
    (hm : s.offset < s.data.length) (hb : s.upper = s.bank) :
    step s = .next ((s.emitFormat (BitVec.ofNat 8 s.chunk) s.lower 0#8 (s.memRead s.offset s.chunk)).advance s.chunk) := by
  rw [step_of_due _ _ hp (State.due_data hp ho hr hm hb), exec_recData_encode hp ho hr hm hb]

theorem step_run_ela {s : State} (hp : s.phase = .run) (ho : s.op = .encode) (hr : s.start.toNat + s.offset < 2 ^ 32)
    (hm : s.offset < s.data.length) (hb : s.upper ≠ s.bank) :
    step s = .next ((s.emitEla s.upper).setBank s.upper) := by
  rw [step_of_due _ _ hp (State.due_ela hp ho hr hm hb), exec_recEla_encode hp ho hr hm hb]

theorem step_run_eof {s : State} (hp : s.phase = .run) (ho : s.op = .encode) (hm : s.data.length ≤ s.offset) :
    step s = .next (s.emit eofLine).finish := by
  rw [step_of_due _ _ hp (State.due_eof hp ho hm), exec_recEof_encode hp ho hm]

theorem step_run_beyond {s : State} (hp : s.phase = .run) (ho : s.op = .encode) (hr : 2 ^ 32 ≤ s.start.toNat + s.offset)
    (hm : s.offset < s.data.length) : step s = .refused .addressRange := by
  have hc : s.curInRange = false := by rw [← Bool.not_eq_true, State.curInRange_iff]; omega
  have hd : s.due = none := by
    simp only [State.due, hp, ho, State.dueEncode, (State.more_iff s).2 hm, hc]
    rfl
  simp only [step, hp, hd]

theorem step_run_format {s : State} (hp : s.phase = .run) (ho : s.op = .format) :
    step s = .next ((s.emitFormat s.fmt.bc s.fmt.addr s.fmt.rt s.fmt.pay).finish) := by
  rw [step_of_due _ _ hp (State.due_format hp ho), exec_due_format hp ho]

theorem step_run_emitEla {s : State} (hp : s.phase = .run) (ho : s.op = .emitEla) :
    step s = .next ((s.emitEla s.eUpper).finish) := by
  rw [step_of_due _ _ hp (State.due_emitEla hp ho), exec_recEla_emitEla hp ho]

theorem step_idle (s : State) (hp : s.phase ≠ .run) (hh : s.host = []) : step s = .next s := by
  unfold step
  cases h : s.phase <;> simp_all

theorem step_reset (s : State) (rest : List HostMove) (hp : s.phase ≠ .run) (hh : s.host = .reset :: rest) :
    step s = .next (s.withHost rest).applyReset := by
  unfold step
  cases h : s.phase <;> simp_all

theorem step_encode {s : State} {c : Cmd} {rest : List HostMove} (hp : s.phase ≠ .run) (hc : c.select = 0#2)
    (hh : s.host = .present c :: rest) (hr : c.startAddress.toNat + c.din.length ≤ 2 ^ 32) :
    step s = .next (((s.withHost rest).startPass .encode).loadEncode c.startAddress c.din) := by
  rw [step_of_present s c rest hp hh]
  simp only [decodeCmd, hc, BitVec.toNat_ofNat, Nat.zero_mod, exec, execEncode]
  rw [State.ifStartable_of_ne _ _ (by simpa using hp), if_pos (by exact hr)]

theorem step_format {s : State} {c : Cmd} {rest : List HostMove} (hp : s.phase ≠ .run) (hc : c.select = 1#2)
    (hh : s.host = .present c :: rest) :
    step s
      = .next (((s.withHost rest).startPass .format).loadFormatter c.byteCount c.address c.recordType c.din) := by
  rw [step_of_present s c rest hp hh]
  simp only [decodeCmd, hc, BitVec.toNat_ofNat, Nat.reducePow, Nat.reduceMod, exec, execFormat]
  rw [State.ifStartable_of_ne _ _ (by simpa using hp)]

theorem step_emitEla {s : State} {c : Cmd} {rest : List HostMove} (hp : s.phase ≠ .run) (hc : c.select = 2#2)
    (hh : s.host = .present c :: rest) :
    step s = .next (((s.withHost rest).startPass .emitEla).loadEmitter c.upperAddress) := by
  rw [step_of_present s c rest hp hh]
  simp only [decodeCmd, hc, BitVec.toNat_ofNat, Nat.reducePow, Nat.reduceMod, exec, execEmitEla]
  rw [State.ifStartable_of_ne _ _ (by simpa using hp)]

end Sys2Proof.Machine
end

