-- ==== Sys2Proof/Tests/Slice0.lean ====
section
/-! SUPPORT. The model's own tests: expected values are those of spec/95_test_vectors.md, and for each obligation with hypotheses a theorem
test_meets_<Obligation> that a concrete state and operands meet them together. -/

namespace Sys2Proof.Tests

open Sys2Proof Sys2Proof.Machine

/-- `:` and the n hexadecimal digits of w: an expected line written as one numeral. -/
def hexLine (n w : Nat) : Line := .colon :: (List.range n).map (fun i => hexDigit (BitVec.ofNat 4 (w / 16 ^ (n - 1 - i))))

/-- An engine with these moves of the host to come, right after reset. -/
def idleWith (moves : List HostMove) : State := { State.reset with host := moves }

/-- An engine whose earlier pass has ended, its registers as program P2 leaves them. -/
def doneWith (moves : List HostMove) : State :=
  { State.reset with phase := .done, offset := 48, bank := 2#16, out := [eofLine], host := moves, start := 5#32, data := [9#8] }

/-- A running ENCODE pass. -/
def inEncode (a : Addr) (d : List Byte) (offset : Nat) (bank : Half) (out : List Line) : State :=
  { State.reset with phase := .run, op := .encode, start := a, data := d, offset := offset, bank := bank, out := out }

/-- A running FORMAT pass. -/
def inFormat (bc : Byte) (addr : Half) (rt : Byte) (pay : List Byte) : State :=
  { State.reset with
    phase := .run, op := .format, fmt := { bc := bc, addr := addr, rt := rt, pay := pay, sum := 0#8, chk := 0#8 } }

/-- A running EMIT_ELA pass. -/
def inEmitEla (u : Half) : State := { State.reset with phase := .run, op := .emitEla, eUpper := u }

/-- The result is a next state with this PHASE, OFFSET, BANK and OUT. -/
def sees (r : Result) (phase : Phase) (offset : Nat) (bank : Half) (out : List Line) : Bool :=
  match r with
  | .next t => decide (t.phase = phase ∧ t.offset = offset ∧ t.bank = bank ∧ t.out = out)
  | .fault _ => false
  | .refused _ => false

/-- The result is this refusal. -/
def refuses (r : Result) (why : Refusal) : Bool :=
  match r with
  | .refused x => decide (x = why)
  | .next _ => false
  | .fault _ => false

/-- 33 zero bytes, the data of E3. -/
def zeros33 : List Byte := List.replicate 33 0#8

/-! ## Well-formedness -/

/-- An ill-formed term for each check, and the nearest well-formed one (2.7 and F18, F1 of spec/95_test_vectors.md). -/
theorem test_wellFormed_refuses :
    Instr.wellFormed (.encode 0xFFFFFFFF#32 [0x5A#8, 0x5B#8]) = false ∧ Instr.wellFormed (.encode 0xFFFFFFFF#32 [0x5A#8]) = true ∧
    Instr.wellFormed (.format 3#8 0#16 0#8 [1#8, 2#8]) = false ∧ Instr.wellFormed (.format 0#8 0#16 0#8 []) = true ∧
    Instr.wellFormed (.recData 3#8 0#16 [1#8, 2#8]) = false ∧ Instr.wellFormed (.recData 1#8 0#16 [0xFF#8]) = true ∧
    Instr.wellFormed (.recGeneric 1#8 0#16 0#8 [0xFF#8]) = false ∧ Instr.wellFormed (.recGeneric 0#8 0#16 1#8 []) = false ∧
    Instr.wellFormed (.recGeneric 2#8 0#16 4#8 [0#8, 1#8]) = false ∧
    Instr.wellFormed (.recGeneric 2#8 0x1234#16 2#8 [0xAB#8, 0xCD#8]) = true := by decide

/-! ## Rendering, checksum, lines -/

/-- R110, the sixteen digits by hand. -/
theorem test_hexDigit :
    (List.range 16).map (fun n => hexDigit (BitVec.ofNat 4 n))
      = [.d0, .d1, .d2, .d3, .d4, .d5, .d6, .d7, .d8, .d9, .dA, .dB, .dC, .dD, .dE, .dF] := by decide

/-- 2.1. -/
theorem test_hex2_hex4 :
    hex2 10#8 = [.d0, .dA] ∧ hex2 16#8 = [.d1, .d0] ∧ hex2 0x9A#8 = [.d9, .dA] ∧ hex2 0xA9#8 = [.dA, .d9] ∧
    hex4 0x0010#16 = [.d0, .d0, .d1, .d0] ∧ hex4 0x1234#16 = [.d1, .d2, .d3, .d4] ∧
    hex4 0xABCD#16 = [.dA, .dB, .dC, .dD] ∧ hex4 0xFFF0#16 = [.dF, .dF, .dF, .d0] := by decide

/-- 2.2, the corners. -/
theorem test_checksum :
    checksum 0#8 0#16 0#8 [] = 0#8 ∧ checksum 0#8 0#16 1#8 [] = 0xFF#8 ∧ checksum 0#8 0x00FF#16 0#8 [] = 1#8 ∧
    checksum 0#8 0xFF00#16 0#8 [] = 1#8 ∧ checksum 0#8 0xFFFF#16 0#8 [] = 2#8 ∧ checksum 1#8 0#16 0#8 [0xFF#8] = 0#8 ∧
    checksum 1#8 0xFFFF#16 0xFF#8 [0xFF#8] = 3#8 ∧ checksum 3#8 0#16 0#8 [1#8, 2#8, 3#8] = 0xF7#8 ∧
    checksum 32#8 0xFFF0#16 0#8 (List.replicate 32 0#8) = 0xF1#8 ∧
    sum8 16#8 0x0100#16 0#8 [0x0A#8, 0x1B#8, 0x2C#8, 0x3D#8, 0x4E#8, 0x5F#8, 0xA0#8, 0xB1#8, 0xC2#8, 0xD3#8, 0xE4#8, 0xF5#8, 0x09#8,
      0x90#8, 0x9A#8, 0xA9#8] = 231#8 := by decide

/-- F1, F3, F4, F7, F8, F13, F14. -/
theorem test_formatLine_short :
    formatLine 0#8 0#16 0#8 [] = hexLine 10 0x0000000000 ∧
    formatLine 0#8 0x00FF#16 0#8 [] = hexLine 10 0x0000FF0001 ∧
    formatLine 0#8 0xFF00#16 0#8 [] = hexLine 10 0x00FF000001 ∧
    formatLine 1#8 0x0080#16 0#8 [0x7F#8] = hexLine 12 0x010080007F00 ∧
    formatLine 1#8 0xFFFF#16 0xFF#8 [0xFF#8] = hexLine 12 0x01FFFFFFFF03 ∧
    formatLine 4#8 0#16 5#8 [0x08#8, 0x00#8, 0x01#8, 0x00#8] = hexLine 18 0x0400000508000100EE ∧
    formatLine 4#8 0#16 5#8 [0x00#8, 0x00#8, 0x01#8, 0x00#8] = hexLine 18 0x0400000500000100F6 := by decide

/-- F15, every digit in both nibble positions; F16; and F18, F19, F20 under decision D5 (log 15). -/
theorem test_formatLine_long_and_illFormed :
    formatLine 16#8 0x0100#16 0#8 [0x0A#8, 0x1B#8, 0x2C#8, 0x3D#8, 0x4E#8, 0x5F#8, 0xA0#8, 0xB1#8, 0xC2#8, 0xD3#8, 0xE4#8, 0xF5#8,
      0x09#8, 0x90#8, 0x9A#8, 0xA9#8] = hexLine 42 0x100100000A1B2C3D4E5FA0B1C2D3E4F509909AA919 ∧
    formatLine 32#8 0#16 0#8 (List.replicate 32 0xFF#8)
      = hexLine 74 0x20000000FFFFFFFFFFFFFFFFFFFFFFFFFFFFFFFFFFFFFFFFFFFFFFFFFFFFFFFFFFFFFFFF00 ∧
    formatLine 3#8 0#16 0#8 [1#8, 2#8] = hexLine 14 0x030000000102FA ∧
    formatLine 1#8 0#16 0#8 [1#8, 2#8, 3#8] = hexLine 16 0x01000000010203F9 ∧
    formatLine 0#8 0#16 1#8 [0#8] = hexLine 12 0x0000000100FF := by decide

/-- 2.4. -/
theorem test_split :
    splitUpper 0x0000FFF0#32 = 0#16 ∧ splitLower 0x0000FFF0#32 = 0xFFF0#16 ∧ splitUpper 0x00010010#32 = 1#16 ∧
    splitLower 0x00010010#32 = 0x0010#16 ∧ splitUpper 0x12345678#32 = 0x1234#16 ∧ splitLower 0x12345678#32 = 0x5678#16 ∧
    splitUpper 0xFFFE0000#32 = 0xFFFE#16 ∧ splitLower 0xFFFFFFFF#32 = 0xFFFF#16 := by decide

/-- 2.5: the payload is big-endian, bank 0 has a line, and both checksum corners. -/
theorem test_elaLine :
    elaLine 0#16 = hexLine 14 0x020000040000FA ∧ elaLine 1#16 = hexLine 14 0x020000040001F9 ∧
    elaLine 0x00FA#16 = hexLine 14 0x0200000400FA00 ∧ elaLine 0x00FF#16 = hexLine 14 0x0200000400FFFB ∧
    elaLine 0x0100#16 = hexLine 14 0x020000040100F9 ∧ elaLine 0x1234#16 = hexLine 14 0x020000041234B4 ∧
    elaLine 0xFFFE#16 = hexLine 14 0x02000004FFFEFD ∧ elaLine 0xFFFF#16 = hexLine 14 0x02000004FFFFFC := by decide

/-- R84, R93: the code of `:`, of `F`, and two codes that are no symbol (`a`, and `A` with bit 7 set). -/
theorem test_ascii :
    lineAscii eofLine = [0x3A#8, 0x30#8, 0x30#8, 0x30#8, 0x30#8, 0x30#8, 0x30#8, 0x30#8, 0x31#8, 0x46#8, 0x46#8] ∧
    Sym.ofAscii? 0x61#8 = none ∧ Sym.ofAscii? 0xC1#8 = none := by decide

/-! ## Decoding -/

/-- The lines of E2, E4, E5, F11 and F18, and their opposite: a lower-case digit, too short a line, an odd number of digits, no colon,
a second colon, a wrong checksum. -/
theorem test_decode_lines :
    decodeLine (hexLine 16 0x03000000010203F7) = .ok (.recData 3#8 0#16 [1#8, 2#8, 3#8]) ∧
    decodeLine (hexLine 14 0x020000040001F9) = .ok (.recEla 1#16) ∧
    decodeLine (hexLine 10 0x00000001FF) = .ok .recEof ∧
    decodeLine (hexLine 14 0x02123402ABCD3E) = .ok (.recGeneric 2#8 0x1234#16 2#8 [0xAB#8, 0xCD#8]) ∧
    decodeLine (hexLine 14 0x030000000102FA) = .ok (.recGeneric 3#8 0#16 0#8 [1#8, 2#8]) ∧
    decodeLine (hexLine 10 0x00000001FE) = .error .badChecksum ∧ decodeLine (hexLine 8 0x000000FF) = .error .tooShort ∧
    decodeLine (hexLine 11 0x00000001FF0) = .error .oddDigits ∧ decodeLine [] = .error .noStartMarker ∧
    decodeLine [.colon, .colon] = .error .notADigit ∧ decodeBytes [0x3A#8, 0x61#8] = .error .notASymbol := by decide

/-- R100: the four selects; an operand lane the operation does not name is not looked at. -/
theorem test_decode_selects :
    decodeCmd { select := 0#2, startAddress := 0xFFF0#32, upperAddress := 7#16, din := [1#8] } = .encode 0xFFF0#32 [1#8] ∧
    decodeCmd { select := 1#2, byteCount := 1#8, address := 0x80#16, recordType := 5#8, din := [0x7F#8] }
      = .format 1#8 0x80#16 5#8 [0x7F#8] ∧
    decodeCmd { select := 2#2, upperAddress := 0x1234#16, din := [9#8] } = .emitEla 0x1234#16 ∧
    decodeCmd { select := 3#2 } = .reservedSelect11 := by decide

/-- The words of spec/opcode_table.json: a header word with `LL` zero payload bytes where the row is a record. -/
theorem test_decodeTableWord :
    decodeTableWord 8 0 = some (.encode 0#32 []) ∧ decodeTableWord 8 1 = some (.format 0#8 0#16 0#8 []) ∧
    decodeTableWord 8 2 = some (.emitEla 0#16) ∧ decodeTableWord 8 3 = some .reservedSelect11 ∧
    decodeTableWord 32 0 = some (.recData 0#8 0#16 []) ∧ decodeTableWord 32 1 = some .recEof ∧
    decodeTableWord 32 0x02000004 = some (.recEla 0#16) ∧
    decodeTableWord 32 0x01123405 = some (.recGeneric 1#8 0x1234#16 5#8 [0#8]) := by decide

/-- Each of those words is what the next step runs, as the first after reset. -/
theorem test_withFetchWord :
    sees (step (State.reset.withFetchWord 8 0)) .run 0 0#16 [] ∧
    sees (step (State.reset.withFetchWord 8 1)) .run 0 0#16 [] ∧
    sees (step (State.reset.withFetchWord 8 2)) .run 0 0#16 [] ∧
    refuses (step (State.reset.withFetchWord 8 3)) .reservedSelect ∧
    sees (step (State.reset.withFetchWord 32 0)) .done 0 0#16 [hexLine 10 0] ∧
    sees (step (State.reset.withFetchWord 32 1)) .done 0 0#16 [hexLine 10 0x00000001FF] ∧
    sees (step (State.reset.withFetchWord 32 0x02000004)) .done 0 0#16 [hexLine 14 0x020000040000FA] ∧
    sees (step (State.reset.withFetchWord 32 0x01123405)) .done 0 0#16 [hexLine 12 0x0112340500B4] := by decide

/-! ## Single steps -/

/-- P3 pass B, step 1: BANK and OFFSET left by another pass are cleared, OUT is emptied. -/
theorem test_encode_starts :
    sees (step (doneWith [.present { select := 0#2, startAddress := 0x10000#32, din := [1#8] }])) .run 0 0#16 [] := by decide

/-- 2.7: refused, beside accepted with equality. -/
theorem test_encode_range :
    refuses (exec (.encode 0xFFFFFFFF#32 [0x5A#8, 0x5B#8]) State.reset) .addressRange ∧
    refuses (exec (.encode 0xFFFFFFE0#32 zeros33) State.reset) .addressRange ∧
    sees (exec (.encode 0xFFFFFFE0#32 (List.replicate 32 0#8)) State.reset) .run 0 0#16 [] ∧
    sees (exec (.encode 0xFFFFFFFF#32 []) State.reset) .run 0 0#16 [] := by decide

/-- P4 pass 2: the start of a FORMAT pass leaves BANK and OFFSET; a start while a pass runs is no move. -/
theorem test_format_starts :
    sees (exec (.format 1#8 0#16 0#8 [0xAB#8]) (doneWith [])) .run 48 2#16 [] ∧
    refuses (exec (.format 1#8 0#16 0#8 [0xAB#8]) (inEmitEla 1#16)) .passRunning := by decide

/-- P4 pass 1. -/
theorem test_emitEla_starts : sees (exec (.emitEla 1#16) (doneWith [])) .run 48 2#16 [] := by decide

/-- 2.7: select 11 starts no pass. -/
theorem test_reservedSelect11 : refuses (exec .reservedSelect11 State.reset) .reservedSelect := by decide

/-- P1 steps 2 and 4: the Data steps. -/
theorem test_recData :
    sees (step (inEncode 0xFFF0#32 zeros33 0 0#16 []))
      .run 32 0#16 [hexLine 74 0x20FFF0000000000000000000000000000000000000000000000000000000000000000000F1] ∧
    sees (step (inEncode 0xFFF0#32 zeros33 32 1#16 [])) .run 33 1#16 [hexLine 12 0x0100100000EF] := by decide

/-- P1 step 3: the ELA step. -/
theorem test_recEla :
    sees (step (inEncode 0xFFF0#32 zeros33 32 0#16 [])) .run 32 1#16 [hexLine 14 0x020000040001F9] ∧
    sees (step (inEmitEla 0x1234#16)) .done 0 0#16 [hexLine 14 0x020000041234B4] := by decide

/-- P1 step 5, and P6 step 2. -/
theorem test_recEof :
    sees (step (inEncode 0xFFF0#32 zeros33 33 1#16 [])) .done 33 1#16 [hexLine 10 0x00000001FF] ∧
    sees (step (inEncode 0x50000#32 [] 0 0#16 [])) .done 0 0#16 [hexLine 10 0x00000001FF] := by decide

/-- F12 and F18, each as a pass's one step; the record of another pass is not emitted. -/
theorem test_recGeneric :
    sees (step (inFormat 2#8 0#16 2#8 [0x10#8, 0#8])) .done 0 0#16 [hexLine 14 0x020000021000EC] ∧
    sees (step (inFormat 3#8 0#16 0#8 [1#8, 2#8])) .done 0 0#16 [hexLine 14 0x030000000102FA] ∧
    refuses (exec (.recGeneric 2#8 0#16 2#8 [0x10#8, 0#8]) (inEmitEla 1#16)) .recordNotDue := by decide

/-! ## The closed form -/

/-- E2, E3, E4, V8, V10, V13, V19. -/
theorem test_encodeLines :
    Block.encodeLines 0#32 [1#8, 2#8, 3#8] = [hexLine 16 0x03000000010203F7, eofLine] ∧
    Block.encodeLines 0xFFF0#32 zeros33
      = [hexLine 74 0x20FFF0000000000000000000000000000000000000000000000000000000000000000000F1,
         hexLine 14 0x020000040001F9, hexLine 12 0x0100100000EF, eofLine] ∧
    Block.encodeLines 0x10000#32 [0xAB#8] = [hexLine 14 0x020000040001F9, hexLine 12 0x01000000AB54, eofLine] ∧
    Block.encodeLines 0xFFFF#32 [0x11#8, 0x22#8] = [hexLine 14 0x02FFFF001122CD, eofLine] ∧
    Block.encodeLines 0xFFFFFFFF#32 [0x5A#8] = [hexLine 14 0x02000004FFFFFC, hexLine 12 0x01FFFF005AA7, eofLine] ∧
    Block.encodeLines 0#32 [0#8] = [hexLine 12 0x0100000000FF, eofLine] ∧
    Block.encodeLines 0x50000#32 [] = [eofLine] := by decide

/-- V12 and V15, and E of R171 on V12, V15 and V20. -/
theorem test_encodeLines_banks :
    Block.encodeLines 0x1FFF0#32 (List.replicate 48 0xA5#8)
      = [hexLine 14 0x020000040001F9,
         hexLine 74 0x20FFF000A5A5A5A5A5A5A5A5A5A5A5A5A5A5A5A5A5A5A5A5A5A5A5A5A5A5A5A5A5A5A5A551,
         hexLine 14 0x020000040002F8, hexLine 42 0x10001000A5A5A5A5A5A5A5A5A5A5A5A5A5A5A5A590, eofLine] ∧
    Block.encodeLines 0xFFF1#32 (List.replicate 32 1#8)
      = [hexLine 74 0x20FFF1000101010101010101010101010101010101010101010101010101010101010101D0, eofLine] ∧
    Block.elaCount 0x1FFF0#32 48 = 2 ∧ Block.elaCount 0xFFF1#32 32 = 0 ∧ Block.elaCount 0xFFF0#32 131104 = 2 := by decide

set_option maxRecDepth 2000 in
/-- The reader check of P1 on the last byte. -/
theorem test_reader :
    (Reader.readAll (Block.encodeLines 0xFFF0#32 zeros33)).map (fun m => (m.length, Reader.imageRead m 0x10010, Reader.imageRead m 0x10011))
      = some (33, some 0#8, none) := by decide

/-! ## The hypotheses of the obligations are met -/

theorem test_meets_HostResetGivesResetState :
    (doneWith [.reset, .reset]).phase ≠ .run ∧ (doneWith [.reset, .reset]).host = .reset :: [.reset] := by decide

theorem test_meets_NoMoveLeavesEngineAsItIs : (doneWith []).phase ≠ .run ∧ (doneWith []).host = [] := by decide

theorem test_meets_StepRunsPresentedCommand :
    (doneWith [.present { select := 2#2, upperAddress := 1#16 }, .reset]).phase ≠ .run ∧
    (doneWith [.present { select := 2#2, upperAddress := 1#16 }, .reset]).host
      = .present { select := 2#2, upperAddress := 1#16 } :: [.reset] ∧
    decode (.cmd { select := 2#2, upperAddress := 1#16 }) = .ok (.emitEla 1#16) := by decide

theorem test_meets_StepRunsDueRecord : (inEncode 0xFFF0#32 zeros33 32 0#16 []).due = some (.recEla 1#16) := by decide

/-- One state for each clause: the end of the data, the bank miss and the bank hit at the crossing of E3, the last address of all. -/
theorem test_meets_DueRecordIsTheEnabledStep :
    State.reset.phase ≠ .run ∧
    ((inEncode 0xFFF0#32 zeros33 33 1#16 []).phase = .run ∧ (inEncode 0xFFF0#32 zeros33 33 1#16 []).op = .encode ∧
      (inEncode 0xFFF0#32 zeros33 33 1#16 []).rangeOk ∧
      (inEncode 0xFFF0#32 zeros33 33 1#16 []).offset = (inEncode 0xFFF0#32 zeros33 33 1#16 []).data.length) ∧
    ((inEncode 0xFFF0#32 zeros33 32 0#16 []).rangeOk ∧
      (inEncode 0xFFF0#32 zeros33 32 0#16 []).offset < (inEncode 0xFFF0#32 zeros33 32 0#16 []).data.length ∧
      (inEncode 0xFFF0#32 zeros33 32 0#16 []).upper ≠ (inEncode 0xFFF0#32 zeros33 32 0#16 []).bank) ∧
    ((inEncode 0xFFFFFFFF#32 [0x5A#8] 0 0xFFFF#16 []).rangeOk ∧
      (inEncode 0xFFFFFFFF#32 [0x5A#8] 0 0xFFFF#16 []).offset < (inEncode 0xFFFFFFFF#32 [0x5A#8] 0 0xFFFF#16 []).data.length ∧
      (inEncode 0xFFFFFFFF#32 [0x5A#8] 0 0xFFFF#16 []).upper = (inEncode 0xFFFFFFFF#32 [0x5A#8] 0 0xFFFF#16 []).bank) ∧
    ((inFormat 3#8 0#16 0#8 [1#8]).phase = .run ∧ (inFormat 3#8 0#16 0#8 [1#8]).op = .format) ∧
    ((inEmitEla 7#16).phase = .run ∧ (inEmitEla 7#16).op = .emitEla) := by unfold State.rangeOk; decide

/-- The range with equality, and with empty data at the last address. -/
theorem test_meets_EncodeStartLoadsThePass :
    (doneWith []).phase ≠ .run ∧ (0xFFFFFFFF#32 : Addr).toNat + [0x5A#8].length ≤ 2 ^ 32 ∧
    (0xFFFFFFE0#32 : Addr).toNat + (List.replicate 32 0#8).length ≤ 2 ^ 32 ∧ ({ select := 0#2 } : Cmd).select = 0#2 := by decide

theorem test_meets_FormatStartLoadsLatches : ({ select := 1#2 } : Cmd).select = 1#2 ∧ (doneWith []).phase ≠ .run := by decide

theorem test_meets_EmitElaStartLoadsOperand : ({ select := 2#2 } : Cmd).select = 2#2 ∧ State.reset.phase ≠ .run := by decide

theorem test_meets_EncodeBeyondTopIsRefused :
    State.reset.phase ≠ .run ∧ 2 ^ 32 < (0xFFFFFFFF#32 : Addr).toNat + [0x5A#8, 0x5B#8].length := by decide

theorem test_meets_ReservedSelectIsRefused : ({ select := 3#2 } : Cmd).select = 3#2 := by decide

theorem test_meets_StartWhileRunningIsNoMove : (inEmitEla 1#16).phase = .run := by decide

theorem test_meets_RecordNotDueIsRefused :
    State.reset.due ≠ some (.recData 0#8 0#16 []) ∧ State.reset.due ≠ some .recEof ∧ (inEmitEla 1#16).due ≠ some (.recEla 2#16) ∧
    ¬ ((inFormat 1#8 0#16 0#8 [1#8]).phase = .run ∧ (inFormat 1#8 0#16 0#8 [1#8]).op = .format ∧
      (inFormat 1#8 0#16 0#8 [1#8]).fmt.bc = 1#8 ∧ (inFormat 1#8 0#16 0#8 [1#8]).fmt.addr = 0#16 ∧
      (inFormat 1#8 0#16 0#8 [1#8]).fmt.rt = 0#8 ∧ (inFormat 1#8 0#16 0#8 [1#8]).fmt.pay = [2#8]) := by decide

/-- A full chunk that crosses a bank boundary, and the last byte of the address space. -/
theorem test_meets_DataStepEmitsChunkAndAdvances :
    ((inEncode 0xFFF0#32 zeros33 0 0#16 []).phase = .run ∧ (inEncode 0xFFF0#32 zeros33 0 0#16 []).op = .encode ∧
      (inEncode 0xFFF0#32 zeros33 0 0#16 []).start.toNat + (inEncode 0xFFF0#32 zeros33 0 0#16 []).offset < 2 ^ 32 ∧
      (inEncode 0xFFF0#32 zeros33 0 0#16 []).offset < (inEncode 0xFFF0#32 zeros33 0 0#16 []).data.length ∧
      (inEncode 0xFFF0#32 zeros33 0 0#16 []).upper = (inEncode 0xFFF0#32 zeros33 0 0#16 []).bank) ∧
    (inEncode 0xFFFFFFFF#32 [0x5A#8] 0 0xFFFF#16 []).start.toNat + (inEncode 0xFFFFFFFF#32 [0x5A#8] 0 0xFFFF#16 []).offset < 2 ^ 32 ∧
    (inEncode 0xFFFFFFFF#32 [0x5A#8] 0 0xFFFF#16 []).upper = (inEncode 0xFFFFFFFF#32 [0x5A#8] 0 0xFFFF#16 []).bank := by decide

/-- A step from bank 1 down to bank 0 is a bank change too: BANK_MISS is an inequality (R29). -/
theorem test_meets_ElaStepEmitsBankAndDataStepFollows :
    ((inEncode 0xFFF0#32 zeros33 32 0#16 []).phase = .run ∧ (inEncode 0xFFF0#32 zeros33 32 0#16 []).op = .encode ∧
      (inEncode 0xFFF0#32 zeros33 32 0#16 []).start.toNat + (inEncode 0xFFF0#32 zeros33 32 0#16 []).offset < 2 ^ 32 ∧
      (inEncode 0xFFF0#32 zeros33 32 0#16 []).offset < (inEncode 0xFFF0#32 zeros33 32 0#16 []).data.length ∧
      (inEncode 0xFFF0#32 zeros33 32 0#16 []).upper ≠ (inEncode 0xFFF0#32 zeros33 32 0#16 []).bank) ∧
    (inEncode 0#32 [1#8] 0 1#16 []).upper ≠ (inEncode 0#32 [1#8] 0 1#16 []).bank := by decide

theorem test_meets_EofStepEndsThePass :
    (inEncode 0#32 [1#8] 1 0#16 []).phase = .run ∧ (inEncode 0#32 [1#8] 1 0#16 []).op = .encode ∧
    (inEncode 0#32 [1#8] 1 0#16 []).data.length ≤ (inEncode 0#32 [1#8] 1 0#16 []).offset := by decide

/-- A pass within the premise on the lengths, and one outside it. -/
theorem test_meets_FormatEmissionEndsThePass :
    (inFormat 1#8 0#16 0#8 [1#8]).phase = .run ∧ (inFormat 1#8 0#16 0#8 [1#8]).op = .format ∧
    LengthsAgree (inFormat 1#8 0#16 0#8 [1#8]).fmt.bc (inFormat 1#8 0#16 0#8 [1#8]).fmt.pay ∧
    (inFormat 3#8 0#16 0#8 [1#8]).phase = .run ∧ (inFormat 3#8 0#16 0#8 [1#8]).op = .format := by decide

/-- One FORMAT pass for each row: Data with no payload and with 32 bytes, EOF, the ELA line of bank 0xFFFE; any of them for REC_GENERIC. -/
theorem test_meets_FormatPassEmitsEveryRow :
    (inFormat 32#8 0xFFFF#16 0#8 (List.replicate 32 1#8)).phase = .run ∧
    (inFormat 32#8 0xFFFF#16 0#8 (List.replicate 32 1#8)).op = .format ∧
    (inFormat 32#8 0xFFFF#16 0#8 (List.replicate 32 1#8)).fmt.pay.length
      = (inFormat 32#8 0xFFFF#16 0#8 (List.replicate 32 1#8)).fmt.bc.toNat ∧
    (inFormat 0#8 0#16 0#8 []).fmt.pay.length = (inFormat 0#8 0#16 0#8 []).fmt.bc.toNat ∧
    ((inFormat 0#8 0#16 1#8 []).fmt.bc = 0#8 ∧ (inFormat 0#8 0#16 1#8 []).fmt.addr = 0#16 ∧
      (inFormat 0#8 0#16 1#8 []).fmt.rt = 1#8 ∧ (inFormat 0#8 0#16 1#8 []).fmt.pay = []) ∧
    ((inFormat 2#8 0#16 4#8 [0xFF#8, 0xFE#8]).fmt.bc = 2#8 ∧
      (inFormat 2#8 0#16 4#8 [0xFF#8, 0xFE#8]).fmt.addr = 0#16 ∧ (inFormat 2#8 0#16 4#8 [0xFF#8, 0xFE#8]).fmt.rt = 4#8 ∧
      (inFormat 2#8 0#16 4#8 [0xFF#8, 0xFE#8]).fmt.pay = [high8 0xFFFE#16, low8 0xFFFE#16]) := by decide

theorem test_meets_EmitElaEmissionEndsThePass : (inEmitEla 7#16).phase = .run ∧ (inEmitEla 7#16).op = .emitEla := by decide

theorem test_meets_FormatPassEmitsOneLine :
    (doneWith [.present { select := 1#2, byteCount := 1#8, din := [0xAB#8] }]).phase ≠ .run ∧
    ({ select := 1#2, byteCount := 1#8, din := [0xAB#8] } : Cmd).select = 1#2 ∧
    (doneWith [.present { select := 1#2, byteCount := 1#8, din := [0xAB#8] }]).host
      = .present { select := 1#2, byteCount := 1#8, din := [0xAB#8] } :: [] ∧ LengthsAgree 1#8 [0xAB#8] := by decide

theorem test_meets_EmitElaPassEmitsOneLine :
    (doneWith [.present { select := 2#2, upperAddress := 1#16 }]).phase ≠ .run ∧
    ({ select := 2#2, upperAddress := 1#16 } : Cmd).select = 2#2 ∧
    (doneWith [.present { select := 2#2, upperAddress := 1#16 }]).host = .present { select := 2#2, upperAddress := 1#16 } :: [] := by decide

theorem test_meets_EncodePassComputesClosedForm :
    (doneWith [.present { select := 0#2, startAddress := 0xFFFFFFE0#32, din := List.replicate 32 7#8 }, .reset]).phase ≠ .run ∧
    (doneWith [.present { select := 0#2, startAddress := 0xFFFFFFE0#32, din := List.replicate 32 7#8 }, .reset]).host
      = .present { select := 0#2, startAddress := 0xFFFFFFE0#32, din := List.replicate 32 7#8 } :: [.reset] ∧
    (0xFFFFFFE0#32 : Addr).toNat + (List.replicate 32 7#8).length ≤ 2 ^ 32 := by decide

theorem test_meets_EmptyDataGivesEofLineAlone :
    (idleWith [.present { select := 0#2, startAddress := 0x50000#32 }]).phase ≠ .run ∧
    (idleWith [.present { select := 0#2, startAddress := 0x50000#32 }]).host
      = .present { select := 0#2, startAddress := 0x50000#32 } :: [] ∧
    ({ select := 0#2, startAddress := 0x50000#32 } : Cmd).din = [] := by decide

/-- The state of P1 before its step 4: the ELA line of the second iteration is out, its Data line is not. -/
def crossing : State :=
  inEncode 0xFFF0#32 zeros33 32 1#16 (Block.linesUpTo 0xFFF0#32 zeros33 1 ++ Block.elaLines 0xFFF0#32 1)

theorem test_crossing_inv : crossing.Inv :=
  ⟨by unfold State.rangeOk; decide, 1, by decide, by decide, .inr ⟨by decide, by decide, rfl⟩⟩

theorem test_meets_InvariantKeptByEveryStep : crossing.Inv ∧ ∃ t, step crossing = .next t := ⟨test_crossing_inv, _, rfl⟩

/-- One pass of each operation, the FORMAT line one that belongs to a row other than REC_GENERIC. -/
theorem test_meets_ExactlyOneStepEnabledInAPass :
    (crossing.phase = .run ∧ crossing.op = .encode ∧ crossing.rangeOk) ∧
    ((inEmitEla 1#16).phase = .run ∧ (inEmitEla 1#16).op = .emitEla) ∧
    ((inFormat 1#8 0#16 0#8 [1#8]).phase = .run ∧ (inFormat 1#8 0#16 0#8 [1#8]).op = .format ∧
      (inFormat 1#8 0#16 0#8 [1#8]).due = some (.recData 1#8 0#16 [1#8])) := by
  unfold State.rangeOk; decide

theorem test_meets_RunningStepAppendsOneLine : crossing.phase = .run ∧ ∃ t, step crossing = .next t := ⟨rfl, _, rfl⟩

theorem test_meets_EmittedLineDecodesToItsInstruction :
    crossing.due = some (.recData 1#8 0x0010#16 [0#8]) ∧ ∃ t, step crossing = .next t := ⟨by decide, _, rfl⟩

theorem test_meets_EveryPassEnds :
    crossing.phase = .run ∧ (crossing.op = .encode → crossing.rangeOk) ∧ (inFormat 3#8 0#16 0#8 []).phase = .run ∧
    ((inFormat 3#8 0#16 0#8 []).op = .encode → (inFormat 3#8 0#16 0#8 []).rangeOk) := by unfold State.rangeOk; decide

/-- A first pass after reset and the same pass after another one. -/
theorem test_meets_PassIsIndependentOfHistory :
    (idleWith [.present { select := 2#2, upperAddress := 1#16 }]).phase ≠ .run ∧
    (doneWith [.present { select := 2#2, upperAddress := 1#16 }]).phase ≠ .run ∧
    (idleWith [.present { select := 2#2, upperAddress := 1#16 }]).host = [.present { select := 2#2, upperAddress := 1#16 }] ∧
    (doneWith [.present { select := 2#2, upperAddress := 1#16 }]).host = [.present { select := 2#2, upperAddress := 1#16 }] ∧
    ∃ t, runFor (1 + 1) (idleWith [.present { select := 2#2, upperAddress := 1#16 }]) = .next t :=
  ⟨by decide, by decide, by decide, by decide, _, rfl⟩

theorem test_meets_RunningPassIsNeverStuck :
    crossing.Inv ∧ crossing.phase = .run ∧ (inFormat 3#8 0#16 0#8 []).Inv ∧ (inFormat 3#8 0#16 0#8 []).phase = .run ∧
    (inEmitEla 1#16).Inv ∧ (inEmitEla 1#16).phase = .run := ⟨test_crossing_inv, rfl, rfl, rfl, rfl, rfl⟩

/-- The bounds of the premise: no payload, and a byte count of 3 with three bytes. -/
theorem test_meets_LineRendersRecordBytes : LengthsAgree 0#8 [] ∧ LengthsAgree 3#8 [1#8, 2#8, 3#8] := by decide

/-- Too few bytes (F18) and too many (F20), in the latches and on DIN. -/
theorem test_meets_IllFormedFormatGivesTheLiteralLine :
    ¬ LengthsAgree 3#8 [1#8, 2#8] ∧ ¬ LengthsAgree 0#8 [0#8] ∧
    (inFormat 3#8 0#16 0#8 [1#8, 2#8]).phase = .run ∧ (inFormat 3#8 0#16 0#8 [1#8, 2#8]).op = .format ∧
    ¬ LengthsAgree (inFormat 3#8 0#16 0#8 [1#8, 2#8]).fmt.bc (inFormat 3#8 0#16 0#8 [1#8, 2#8]).fmt.pay ∧
    (idleWith [.present { select := 1#2, din := [0#8] }]).phase ≠ .run ∧
    (idleWith [.present { select := 1#2, din := [0#8] }]).host = .present { select := 1#2, din := [0#8] } :: [] := by decide

/-- Both refused launches from states that meet the invariant. -/
theorem test_meets_OnlyBadLaunchesAreRefused :
    (idleWith [.present { select := 3#2 }]).Inv ∧ step (idleWith [.present { select := 3#2 }]) = .refused .reservedSelect ∧
    (idleWith [.present { select := 0#2, startAddress := 0xFFFFFFFF#32, din := [1#8, 2#8] }]).Inv ∧
    step (idleWith [.present { select := 0#2, startAddress := 0xFFFFFFFF#32, din := [1#8, 2#8] }]) = .refused .addressRange :=
  ⟨rfl, rfl, rfl, rfl⟩

theorem test_meets_HiddenRegistersReadFromOutput : crossing.Inv ∧ crossing.phase = .run ∧ crossing.op = .encode :=
  ⟨test_crossing_inv, rfl, rfl⟩

theorem test_meets_ChecksumAccumulatorInAnyOrder :
    [0xAB#8, 4#8, 0x34#8, 0x12#8, 1#8].Perm (1#8 :: high8 0x1234#16 :: low8 0x1234#16 :: 4#8 :: [0xAB#8]) := by decide

/-- Both clauses of R141 and their border: 31 bytes and 32 bytes below the boundary. -/
theorem test_meets_SplitAlongAddresses :
    (0x0000FFE0#32 : Addr).toNat + 31 < 2 ^ 32 ∧ (splitLower 0x0000FFE0#32).toNat + 31 < 65536 ∧
    (0x0000FFE0#32 : Addr).toNat + 32 < 2 ^ 32 ∧ 65536 ≤ (splitLower 0x0000FFE0#32).toNat + 32 ∧
    (0x0000FFF0#32 : Addr).toNat + 32 * (0 + 1) < 2 ^ 32 := by decide

/-- A well-formed instruction of each row, and the line of one. -/
theorem test_meets_DecodeOfEncodeIsIdentity :
    Instr.wellFormed (.encode 0xFFFFFFFF#32 [1#8]) = true ∧ Instr.wellFormed (.format 0#8 0#16 9#8 []) = true ∧
    Instr.wellFormed (.emitEla 0#16) = true ∧ Instr.wellFormed .reservedSelect11 = true ∧
    Instr.wellFormed (.recData 1#8 0#16 [1#8]) = true ∧ Instr.wellFormed .recEof = true ∧ Instr.wellFormed (.recEla 0#16) = true ∧
    Instr.wellFormed (.recGeneric 3#8 0#16 0#8 []) = true ∧ encode .recEof = .line eofLine := by decide

theorem test_meets_EncodeOfDecodedLineIsTheLine : decodeLine eofLine = .ok .recEof := by decide

/-- The range premise of the statements about ENCODE results: E3, equality at the top, empty data at the last address. Shared by
EncodeResultCounts, EveryEncodeLineSumsToZero, DataPayloadBound, EofLineLastAndOnlyThere, ElaPlacement, ElaBanksAscendByOne,
OutputReconstructsTheBlock, ReaderRecoversTheBlock, EveryEncodeLineIsWellFormedText. -/
theorem test_meets_range :
    (0xFFF0#32 : Addr).toNat + zeros33.length ≤ 2 ^ 32 ∧ (0xFFFFFFE0#32 : Addr).toNat + (List.replicate 32 0#8).length ≤ 2 ^ 32 ∧
    (0xFFFFFFFF#32 : Addr).toNat + ([] : List Byte).length ≤ 2 ^ 32 := by decide

set_option maxRecDepth 2000 in
/-- The inner premises: a Data line among the lines of E3, a payload before the last, an ELA line in it, a bank a record starts in. -/
theorem test_meets_inner_premises :
    Block.dataLine 0xFFF0#32 zeros33 1 ∈ Block.encodeLines 0xFFF0#32 zeros33 ∧
    parseLine (Block.dataLine 0xFFF0#32 zeros33 1) = .ok { bc := 1#8, addr := 0x10#16, rt := 0#8, pay := [0#8], chk := 0xEF#8 } ∧
    0 + 1 < (Block.dataPayloads (Block.encodeLines 0xFFF0#32 zeros33)).length ∧
    (Block.encodeLines 0xFFF0#32 zeros33)[1]? = some (elaLine 1#16) ∧ Block.elaBank? (elaLine 1#16) = some 1#16 ∧
    1 < Block.chunkCount zeros33.length ∧ Block.chunkBank 0xFFF0#32 1 ≠ 0#16 ∧
    Block.elaBanks (Block.encodeLines 0xFFF0#32 zeros33) ≠ [] := by decide

/-- The border between the clauses: `0x10000` and the address before it. -/
theorem test_meets_FirstLineDependsOnBank :
    (0x10000#32 : Addr).toNat + [0xAB#8].length ≤ 2 ^ 32 ∧ [0xAB#8] ≠ [] ∧ 0x10000 ≤ (0x10000#32 : Addr).toNat ∧
    (0xFFFF#32 : Addr).toNat + [0xAB#8].length ≤ 2 ^ 32 ∧ (0xFFFF#32 : Addr).toNat < 0x10000 := by decide

/-- A crossing with a chunk to follow (E3), one that is the last (V15), and a chunk that ends exactly at the boundary (V17). -/
theorem test_meets_CrossingChunkIsOneRecord :
    (0 < Block.chunkCount zeros33.length ∧ 65536 ≤ (Block.chunkLower 0xFFF0#32 0).toNat + Block.chunkLen zeros33.length 0 ∧
      0 + 1 < Block.chunkCount zeros33.length) ∧
    (65536 ≤ (Block.chunkLower 0xFFF1#32 0).toNat + Block.chunkLen 32 0 ∧ 0 + 1 = Block.chunkCount 32) ∧
    (65536 ≤ (Block.chunkLower 0xFFE0#32 0).toNat + Block.chunkLen 32 0 ∧
      (0xFFE0#32 : Addr).toNat + (List.replicate 32 0x77#8).length ≤ 2 ^ 32) := by decide

end Sys2Proof.Tests
end

/-! SUPPORT. What the lines of an ENCODE pass so far tell of its registers (spec/42_block_encoder.md rule R170, spec/43_properties.md
rule R209): the payloads of their Data lines are the data already taken, and the last bank they carry is the one in force. -/

namespace Sys2Proof.Block

@[simp] theorem elaBanks_append (ls ls' : List Line) : elaBanks (ls ++ ls') = elaBanks ls ++ elaBanks ls' :=
  List.filterMap_append

@[simp] theorem dataPayloads_append (ls ls' : List Line) : dataPayloads (ls ++ ls') = dataPayloads ls ++ dataPayloads ls' :=
  List.filterMap_append

/-- An iteration's ELA line, when there is one, carries its bank. -/
theorem elaBanks_elaLines (a : Addr) (k : Nat) :
    elaBanks (elaLines a k) = if chunkBank a k ≠ bankBefore a k then [chunkBank a k] else [] := by
  unfold elaLines
  split <;> simp [elaBanks]

@[simp] theorem elaBanks_dataLine (a : Addr) (d : List Byte) (k : Nat) : elaBanks [dataLine a d k] = [] := by
  simp [elaBanks]

@[simp] theorem dataPayloads_elaLines (a : Addr) (k : Nat) : dataPayloads (elaLines a k) = [] := by
  unfold elaLines
  split <;> simp [dataPayloads]

@[simp] theorem dataPayloads_dataLine (a : Addr) (d : List Byte) (k : Nat) : dataPayloads [dataLine a d k] = [chunkBytes d k] := by
  simp [dataPayloads]

/-- The chunk read stops at the end of the data, whether or not its length is cut there. -/
theorem chunkBytes_eq_take_drop (d : List Byte) (k : Nat) : chunkBytes d k = (d.drop (32 * k)).take 32 := by
  rw [chunkBytes, chunkLen, ← List.length_drop, ← List.take_eq_take_min]

/-- The first k chunks, put together, are the first 32k bytes of the data (R206 item 1, after k iterations). -/
theorem dataPayloads_linesUpTo_flatten (a : Addr) (d : List Byte) (k : Nat) :
    (dataPayloads (linesUpTo a d k)).flatten = d.take (32 * k) := by
  induction k with
  | zero => simp [linesUpTo, dataPayloads]
  | succ k ih =>
    rw [Nat.mul_succ, List.take_add, ← chunkBytes_eq_take_drop, ← ih]
    simp [linesUpTo, chunkLines]

/-- With the ELA line of iteration k emitted if it needs one, the bank in force is `u_k`. -/
theorem getLastD_append_elaBanks_elaLines {a : Addr} {k : Nat} {bs : List Half} (h : bs.getLastD 0#16 = bankBefore a k) :
    (bs ++ elaBanks (elaLines a k)).getLastD 0#16 = chunkBank a k := by
  rw [elaBanks_elaLines]
  by_cases hb : chunkBank a k = bankBefore a k
  · simpa [hb] using h
  · simp [hb]

/-- After k iterations the latest bank emitted is `u_{k-1}`, or 0 if there is none (R170, R209). -/
theorem elaBanks_linesUpTo_getLastD (a : Addr) (d : List Byte) (k : Nat) :
    (elaBanks (linesUpTo a d k)).getLastD 0#16 = bankBefore a k := by
  induction k with
  | zero => rfl
  | succ k ih => simpa [linesUpTo, chunkLines, bankBefore] using getLastD_append_elaBanks_elaLines ih

end Sys2Proof.Block

/-! The statements on the architectural state (spec/10_state.md). -/

namespace Sys2Proof.Machine

/-- The invariant of a running ENCODE pass. -/
theorem State.inv_run_encode {s : State} (hp : s.phase = .run) (ho : s.op = .encode) : s.Inv ↔ s.rangeOk ∧ s.progress := by
  simp only [State.Inv, hp, ho]

/-- At every point of a pass that `State.progress` describes, BANK is the latest bank in OUT, or 0. -/
theorem State.bank_eq_of_progress {s : State} (h : s.progress) : s.bank = (Block.elaBanks s.out).getLastD 0#16 := by
  obtain ⟨k, -, -, ⟨hbank, hout⟩ | ⟨-, hbank, hout⟩⟩ := h
  · rw [hbank, hout, Block.elaBanks_linesUpTo_getLastD]
  · rw [hbank, hout, Block.elaBanks_append,
      Block.getLastD_append_elaBanks_elaLines (Block.elaBanks_linesUpTo_getLastD s.start s.data k)]

/-- At every point of a pass that `State.progress` describes, the Data lines in OUT carry the first OFFSET bytes of DATA. -/
theorem State.dataPayloads_out_of_progress {s : State} (h : s.progress) :
    (Block.dataPayloads s.out).flatten = s.data.take s.offset := by
  obtain ⟨k, -, hoff, hout⟩ := h
  have hpay : Block.dataPayloads s.out = Block.dataPayloads (Block.linesUpTo s.start s.data k) := by
    obtain ⟨-, hout⟩ | ⟨-, -, hout⟩ := hout <;> simp [hout]
  rw [hpay, Block.dataPayloads_linesUpTo_flatten, hoff, ← List.take_eq_take_min]

/-- Settles O34: BANK is the last bank emitted, and the Data lines carry the first OFFSET bytes of DATA. -/
theorem hiddenRegistersReadFromOutput : Obligations.HiddenRegistersReadFromOutput := by
  intro s hinv hp ho
  obtain ⟨⟨-, hle⟩, hprog⟩ := (State.inv_run_encode hp ho).1 hinv
  refine ⟨State.bank_eq_of_progress hprog, ?_⟩
  rw [State.dataPayloads_out_of_progress hprog, List.length_take_of_le hle]

/-- Settles O1: State.reset is written with the values of R36. -/
theorem resetStateAsSpecified : Obligations.ResetStateAsSpecified :=
  ⟨rfl, rfl, rfl, rfl⟩

/-- Settles O25: PHASE is IDLE at reset, where the invariant asks for an empty OUT. -/
theorem invariantHoldsAtReset : Obligations.InvariantHoldsAtReset :=
  show State.reset.out = [] from rfl

/-- Settles O4: `decode` of a command is `decodeCmd`, which the step runs. -/
theorem stepRunsPresentedCommand : Obligations.StepRunsPresentedCommand := by
  intro s c i rest hp hh hd
  have hi : decodeCmd c = i := Except.ok.inj hd
  rw [step_of_present s c rest hp hh, hi]

theorem decodeCmd_of_select_format {c : Cmd} (hc : c.select = 1#2) :
    decodeCmd c = .format c.byteCount c.address c.recordType c.din := by
  simp [decodeCmd, hc]

theorem decodeCmd_of_select_emitEla {c : Cmd} (hc : c.select = 2#2) : decodeCmd c = .emitEla c.upperAddress := by
  simp [decodeCmd, hc]

/-- The start step of a FORMAT pass (R27, R30). -/
theorem exec_format_of_ne_run {s : State} (hp : s.phase ≠ .run) (bc : Byte) (addr : Half) (rt : Byte) (pay : List Byte) :
    exec (.format bc addr rt pay) s = .next ((s.startPass .format).loadFormatter bc addr rt pay) := by
  rw [exec, execFormat, State.ifStartable_of_ne _ _ hp]

/-- The start step of an EMIT_ELA pass (R27, R31). -/
theorem exec_emitEla_of_ne_run {s : State} (hp : s.phase ≠ .run) (u : Half) :
    exec (.emitEla u) s = .next ((s.startPass .emitEla).loadEmitter u) := by
  rw [exec, execEmitEla, State.ifStartable_of_ne _ _ hp]

/-- Settles O9: the start step is `startPass` and `loadFormatter`, whose fields are the ones stated. -/
theorem formatStartLoadsLatches : Obligations.FormatStartLoadsLatches :=
  ⟨fun _ => decodeCmd_of_select_format, fun _ bc addr rt pay hp => exec_format_of_ne_run hp bc addr rt pay⟩

/-- Settles O10: the start step is `startPass` and `loadEmitter`, whose fields are the ones stated. -/
theorem emitElaStartLoadsOperand : Obligations.EmitElaStartLoadsOperand :=
  ⟨fun _ => decodeCmd_of_select_emitEla, fun _ u hp => exec_emitEla_of_ne_run hp u⟩

end Sys2Proof.Machine

/-! The statements on the encodings (spec/30_encoding.md): ASCII codes, the row of a record, and the decoder against the encoder. -/

namespace Sys2Proof

/-! ### ASCII (R84) -/

@[simp] theorem ofAscii?_ascii (c : Sym) : Sym.ofAscii? c.ascii = some c := by
  cases c <;> rfl

@[simp] theorem asciiLine?_lineAscii (l : Line) : asciiLine? (lineAscii l) = some l := by
  induction l with
  | nil => rfl
  | cons c l ih =>
    rw [lineAscii, List.map_cons, asciiLine?, ofAscii?_ascii, ← lineAscii, ih]

/-- On the bytes of a line the decoder of bytes is the decoder of lines. -/
@[simp] theorem decodeBytes_lineAscii (l : Line) : decodeBytes (lineAscii l) = decodeLine l := by
  rw [decodeBytes, asciiLine?_lineAscii]

/-! ### The row of a record (R86) -/

/-- A well-formed REC_GENERIC has the fields of no more specific row. -/
theorem classify_of_wellFormed {bc : Byte} {addr : Half} {rt : Byte} {pay : List Byte}
    (h : (Instr.recGeneric bc addr rt pay).wellFormed = true) : classify bc addr rt pay = .recGeneric bc addr rt pay := by
  simp only [Instr.wellFormed, Bool.and_eq_true, Bool.not_eq_true'] at h
  obtain ⟨⟨hdata, heof⟩, hela⟩ := h
  simp [classify, hdata, heof, hela]

theorem wellFormed_classify (bc : Byte) (addr : Half) (rt : Byte) (pay : List Byte) :
    (classify bc addr rt pay).wellFormed = true := by
  rcases classify_cases bc addr rt pay with ⟨h, -, hlen⟩ | ⟨h, -⟩ | ⟨u, h, -⟩ | ⟨h, hwf⟩
  · rw [h, Instr.wellFormed, hlen, beq_self_eq_true]
  · rw [h, Instr.wellFormed]
  · rw [h, Instr.wellFormed]
  · rw [h, hwf]

/-- Whatever row a record belongs to, that row's line is the line of the record's fields. -/
theorem encode_classify (bc : Byte) (addr : Half) (rt : Byte) (pay : List Byte) :
    encode (classify bc addr rt pay) = .line (formatLine bc addr rt pay) := by
  rcases classify_cases bc addr rt pay with ⟨h, rfl, -⟩ | ⟨h, rfl, rfl, rfl, rfl⟩ | ⟨u, h, rfl, rfl, rfl, rfl⟩ | ⟨h, -⟩
  · rw [h, encode]
  · rw [h, encode, eofLine_eq]
  · rw [h, encode, elaLine]
  · rw [h, encode]

/-- The decoder accepts the lines FORMAT makes and no others, and answers the row of their fields (R115, R116). -/
theorem decodeLine_eq_ok {l : Line} {i : Instr} (h : decodeLine l = .ok i) :
    ∃ bc addr rt pay, l = formatLine bc addr rt pay ∧ i = classify bc addr rt pay := by
  unfold decodeLine at h
  split at h
  · cases h
  · rename_i r hr
    split at h
    · rename_i hchk
      refine ⟨r.bc, r.addr, r.rt, r.pay, ?_, (Except.ok.inj h).symm⟩
      rw [parseLine_inv hr, hchk, formatLine]
    · cases h

/-! ### Decoder and encoder -/

theorem decodeCmd_of_select_reserved {c : Cmd} (hc : c.select = 3#2) : decodeCmd c = .reservedSelect11 := by
  simp [decodeCmd, hc]

theorem decode_encode {i : Instr} (h : i.wellFormed = true) : decode (encode i) = .ok i := by
  cases i with
  | encode a d => rfl
  | format bc addr rt pay => rfl
  | emitEla u => rfl
  | reservedSelect11 => rfl
  | recData bc addr pay =>
    have hlen : pay.length = bc.toNat := by simpa [Instr.wellFormed] using h
    rw [encode, decode, decodeLine_formatLine, classify_data bc addr pay hlen]
  | recEof => exact decodeLine_eofLine
  | recEla u => exact decodeLine_elaLine u
  | recGeneric bc addr rt pay => rw [encode, decode, decodeLine_formatLine, classify_of_wellFormed h]

/-- Settles O41: a command's lanes hold the operands, and a record's line is a FORMAT line whose fields belong to its row. -/
theorem decodeOfEncodeIsIdentity : Obligations.DecodeOfEncodeIsIdentity := by
  intro i hwf
  have hdec := decode_encode hwf
  refine ⟨hdec, fun l hl => ?_⟩
  rw [hl, decode] at hdec
  rw [decodeBytes_lineAscii, hdec]

/-- Settles O42: an accepted line is a FORMAT line, and the row it is read as has that line. -/
theorem encodeOfDecodedLineIsTheLine : Obligations.EncodeOfDecodedLineIsTheLine := by
  intro l i h
  obtain ⟨bc, addr, rt, pay, rfl, rfl⟩ := decodeLine_eq_ok h
  exact ⟨encode_classify bc addr rt pay, wellFormed_classify bc addr rt pay⟩

/-! ### The bytes of a line (R80, R81) -/

@[simp] theorem lineBytes?_formatLine (bc : Byte) (addr : Half) (rt : Byte) (pay : List Byte) :
    Block.lineBytes? (formatLine bc addr rt pay)
      = some (bc :: high8 addr :: low8 addr :: rt :: (pay ++ [checksum bc addr rt pay])) := by
  rw [formatLine, recordLine_eq, Block.lineBytes?, lineNibbles?_hexBytes]
  exact nibblePairs?_byteNibbles _

/-- Settles O35: the line renders the record's bytes for every payload; the premise makes its length the one of R82. -/
theorem lineRendersRecordBytes : Obligations.LineRendersRecordBytes := by
  intro bc addr rt pay hlen
  exact ⟨lineBytes?_formatLine bc addr rt pay, by rw [formatLine_length, hlen]⟩

/-- Settles O7: each word is a literal, and the decoder computes on it. -/
theorem specWordsDecode : Obligations.SpecWordsDecode := by
  unfold Obligations.SpecWordsDecode
  decide

end Sys2Proof

namespace Sys2Proof.Machine

/-- Settles O12: select 11 decodes to the row whose meaning is the refusal. -/
theorem reservedSelectIsRefused : Obligations.ReservedSelectIsRefused :=
  ⟨fun _ => decodeCmd_of_select_reserved, fun _ => rfl⟩

/-- The line of the chunk at OFFSET is read as a Data record (R165). -/
theorem State.decodeLine_chunk (s : State) :
    decodeLine (formatLine (BitVec.ofNat 8 s.chunk) s.lower 0#8 (s.memRead s.offset s.chunk))
      = .ok (.recData (BitVec.ofNat 8 s.chunk) s.lower (s.memRead s.offset s.chunk)) := by
  rw [decodeLine_formatLine, classify_data]
  rw [State.memRead_length, State.chunk_toNat]

/-- A step of a running pass emits one line, which reads back as the record that was due, unless the current address is beyond the space. -/
theorem step_run_refused_or_emits (s : State) (hp : s.phase = .run) :
    step s = .refused .addressRange ∨
      ∃ i t l, s.due = some i ∧ step s = .next t ∧ t.out = s.out ++ [l] ∧ decodeLine l = .ok i := by
  rcases State.run_cases s with
    ⟨ho, hr, hm, hb⟩ | ⟨ho, hr, hm, hb⟩ | ⟨ho, hm⟩ | ⟨ho, hr, hm⟩ | ho | ho
  · exact .inr ⟨_, _, _, State.due_data hp ho hr hm hb, step_run_data hp ho hr hm hb, by simp, s.decodeLine_chunk⟩
  · exact .inr ⟨_, _, _, State.due_ela hp ho hr hm hb, step_run_ela hp ho hr hm hb, by simp, decodeLine_elaLine _⟩
  · exact .inr ⟨_, _, _, State.due_eof hp ho hm, step_run_eof hp ho hm, by simp, decodeLine_eofLine⟩
  · exact .inl (step_run_beyond hp ho hr hm)
  · exact .inr ⟨_, _, _, State.due_format hp ho, step_run_format hp ho, by simp, decodeLine_formatLine ..⟩
  · exact .inr ⟨_, _, _, State.due_emitEla hp ho, step_run_emitEla hp ho, by simp, decodeLine_elaLine _⟩

/-- Settles O29: the one record due and the one next state are those of `step_run_refused_or_emits`. -/
theorem emittedLineDecodesToItsInstruction : Obligations.EmittedLineDecodesToItsInstruction := by
  intro s t i hdue hstep
  rcases step_run_refused_or_emits s (State.phase_of_due hdue) with hr | ⟨j, u, l, hj, hu, hout, hdec⟩
  · rw [hr] at hstep
    cases hstep
  · rw [hdue] at hj
    rw [hstep] at hu
    cases hj
    cases hu
    exact ⟨l, hout, hdec⟩

end Sys2Proof.Machine

/-! The statements on the record formatter (spec/40_record_formatter.md): the checksum's arithmetic, and the FORMAT pass. -/

namespace Sys2Proof

/-! ### The checksum (R113, R114, R116) -/

theorem sum8_eq_ofNat_byteSum (bc : Byte) (addr : Half) (rt : Byte) (pay : List Byte) :
    sum8 bc addr rt pay = BitVec.ofNat 8 (byteSum (bc :: high8 addr :: low8 addr :: rt :: pay)) := by
  simp only [sum8, byteSum, Nat.add_assoc]

/-- Dropping the carry at every addition is reducing the whole sum once. -/
theorem foldl_add_eq_ofNat_byteSum (bs : List Byte) (acc : Byte) :
    bs.foldl (· + ·) acc = acc + BitVec.ofNat 8 (byteSum bs) := by
  induction bs generalizing acc with
  | nil => simp [byteSum]
  | cons b bs ih => simp [byteSum, ih, BitVec.ofNat_add, BitVec.add_assoc]

/-- Settles O37: 8-bit addition commutes, so the order is immaterial, and in record order the accumulator holds the sum modulo 256. -/
theorem checksumAccumulatorInAnyOrder : Obligations.ChecksumAccumulatorInAnyOrder := by
  intro bc addr rt pay bytes hperm
  calc bytes.foldl (· + ·) 0#8
      = (bc :: high8 addr :: low8 addr :: rt :: pay).foldl (· + ·) 0#8 := hperm.foldl_op_eq
    _ = BitVec.ofNat 8 (byteSum (bc :: high8 addr :: low8 addr :: rt :: pay)) := by
      rw [foldl_add_eq_ofNat_byteSum, BitVec.zero_add]
    _ = sum8 bc addr rt pay := (sum8_eq_ofNat_byteSum bc addr rt pay).symm

/-- `negate8 s` is the one byte that brings a sum congruent to s back to 0 (R114). -/
theorem add_mod_eq_zero_iff_eq_negate8 (n : Nat) (c : Byte) :
    (n + c.toNat) % 256 = 0 ↔ c = negate8 (BitVec.ofNat 8 n) := by
  have hc := c.isLt
  rw [← BitVec.toNat_inj, negate8, BitVec.toNat_ofNat, BitVec.toNat_ofNat]
  omega

/-- Settles O36: the checksum is `negate8` of the sum of the other bytes. -/
theorem zeroSumLaw : Obligations.ZeroSumLaw := by
  intro bc addr rt pay c
  exact add_mod_eq_zero_iff_eq_negate8 _ c

end Sys2Proof

namespace Sys2Proof.Machine

/-! ### The FORMAT pass (R115, R119, R124) -/

/-- The emission step of a FORMAT pass is the meaning of the row its latches belong to. -/
theorem exec_of_classify_format {s : State} {i : Instr} (hp : s.phase = .run) (ho : s.op = .format)
    (hi : classify s.fmt.bc s.fmt.addr s.fmt.rt s.fmt.pay = i) :
    exec i s = .next (s.emitFormat s.fmt.bc s.fmt.addr s.fmt.rt s.fmt.pay).finish := by
  rw [← hi, exec_due_format hp ho]

/-- The last emission of a pass appends its line. -/
theorem State.emitFormat_finish_out (s : State) (bc : Byte) (addr : Half) (rt : Byte) (pay : List Byte) :
    (s.emitFormat bc addr rt pay).finish.out = s.out ++ [formatLine bc addr rt pay] := by
  simp

/-- Settles O18: REC_GENERIC and the due row both answer the state that `emitFormat` and `finish` make. -/
theorem formatEmissionEndsThePass : Obligations.FormatEmissionEndsThePass := by
  intro s hp ho
  have hout := State.emitFormat_finish_out s s.fmt.bc s.fmt.addr s.fmt.rt s.fmt.pay
  refine ⟨_, _, exec_recGeneric_format hp ho, State.due_format hp ho, exec_due_format hp ho, ⟨_, hout⟩, fun _ => hout, ?_⟩
  simp [ho]

/-- Settles O19: the fields of each row are classified under it, and REC_GENERIC takes any fields. -/
theorem formatPassEmitsEveryRow : Obligations.FormatPassEmitsEveryRow := by
  intro s hp ho
  refine ⟨fun hrt hlen => ?_, fun hbc haddr hrt hpay => ?_, fun u hbc haddr hrt hpay => ?_, ?_⟩
  · have hi : classify s.fmt.bc s.fmt.addr s.fmt.rt s.fmt.pay = .recData s.fmt.bc s.fmt.addr s.fmt.pay := by
      rw [hrt, classify_data _ _ _ hlen]
    exact ⟨_, exec_of_classify_format hp ho hi, by simp, by simp [hrt]⟩
  · have hi : classify s.fmt.bc s.fmt.addr s.fmt.rt s.fmt.pay = .recEof := by
      rw [hbc, haddr, hrt, hpay]
      rfl
    exact ⟨_, exec_of_classify_format hp ho hi, by simp, by simp [hbc, haddr, hrt, hpay, eofLine_eq]⟩
  · have hi : classify s.fmt.bc s.fmt.addr s.fmt.rt s.fmt.pay = .recEla u := by
      rw [hbc, haddr, hrt, hpay, classify_ela]
    exact ⟨_, exec_of_classify_format hp ho hi, by simp, by simp, by simp, by simp [hbc, haddr, hrt, hpay, elaLine]⟩
  · have hout := State.emitFormat_finish_out s s.fmt.bc s.fmt.addr s.fmt.rt s.fmt.pay
    exact ⟨_, exec_recGeneric_format hp ho, by simp, ⟨_, hout⟩, fun _ => hout⟩

/-- A state whose next host move starts a FORMAT pass, after the start step (R27). -/
def State.formatStarted (s : State) (c : Cmd) (rest : List HostMove) : State :=
  ((s.withHost rest).startPass .format).loadFormatter c.byteCount c.address c.recordType c.din

/-- A FORMAT pass, whole: the start step, then the emission of the operands' line (R124). -/
theorem runFor_two_format {s : State} {c : Cmd} {rest : List HostMove} (hp : s.phase ≠ .run) (hc : c.select = 1#2)
    (hh : s.host = .present c :: rest) :
    runFor 2 s
      = .next ((s.formatStarted c rest).emitFormat c.byteCount c.address c.recordType c.din).finish := by
  have hstart : step s = .next (s.formatStarted c rest) := step_format hp hc hh
  have hemit := step_run_format (s := s.formatStarted c rest) rfl rfl
  simp only [runFor, hstart, hemit]
  rfl

/-- Settles O21: the start step, then the two steps together. -/
theorem formatPassEmitsOneLine : Obligations.FormatPassEmitsOneLine := by
  intro s c rest hp hc hh
  refine ⟨⟨_, step_format hp hc hh, by simp, by simp⟩, _, runFor_two_format hp hc hh, ?_⟩
  simp [State.formatStarted]

/-- Settles O54: the layout lemmas and the emission step need no premise on the length, and no row but REC_GENERIC takes such latches. -/
theorem illFormedFormatGivesTheLiteralLine : Obligations.IllFormedFormatGivesTheLiteralLine := by
  refine ⟨fun bc addr rt pay _ => ?_, fun s hp ho hlen => ?_, fun s c rest hp hc hh _ => ?_⟩
  · exact ⟨lineBytes?_formatLine bc addr rt pay, formatLine_length bc addr rt pay⟩
  · have hdue := State.due_format hp ho
    rw [classify_of_not_lengthsAgree hlen] at hdue
    exact ⟨hdue, _, exec_recGeneric_format hp ho, by simp, State.emitFormat_finish_out ..⟩
  · exact ⟨_, runFor_two_format hp hc hh, by simp, by simp [State.formatStarted]⟩

end Sys2Proof.Machine

/-! The statements on the extended address (spec/41_extended_address.md): the split of an address, the ELA line, and the EMIT_ELA pass. -/

namespace Sys2Proof.Block

/-! ### The split of an address (R140, R141) -/

theorem splitUpper_append_splitLower (a : Addr) : (splitUpper a ++ splitLower a : BitVec 32) = a := by
  apply BitVec.eq_of_toNat_eq
  rw [append_toNat, splitUpper_toNat, splitLower_toNat]
  exact Nat.div_add_mod' ..

/-- Settles O38: the two halves are quotient and remainder by 65536. -/
theorem splitLosesNothing : Obligations.SplitLosesNothing := by
  intro a
  have hval : a.toNat = (splitUpper a).toNat * 65536 + (splitLower a).toNat := by
    rw [splitUpper_toNat, splitLower_toNat, Nat.div_add_mod']
  exact ⟨splitUpper_toNat a, splitLower_toNat a, hval, (splitUpper_append_splitLower a).symm⟩

/-- The bank grows by what the lower address carries out. -/
theorem splitUpper_add_toNat {a : Addr} {d : Nat} (h : a.toNat + d < 2 ^ 32) :
    (splitUpper (BitVec.ofNat 32 (a.toNat + d))).toNat = (splitUpper a).toNat + ((splitLower a).toNat + d) / 65536 := by
  rw [splitUpper_toNat, splitUpper_toNat, splitLower_toNat, BitVec.toNat_ofNat, Nat.mod_eq_of_lt h]
  omega

theorem splitLower_add_toNat {a : Addr} {d : Nat} (h : a.toNat + d < 2 ^ 32) :
    (splitLower (BitVec.ofNat 32 (a.toNat + d))).toNat = ((splitLower a).toNat + d) % 65536 := by
  rw [splitLower_toNat, splitLower_toNat, BitVec.toNat_ofNat, Nat.mod_eq_of_lt h]
  omega

/-- Over at most one bank's length the lower address carries out at most once. -/
theorem split_add_cases {a : Addr} {d : Nat} (h : a.toNat + d < 2 ^ 32) (hd : d ≤ 65536) :
    ((splitLower a).toNat + d < 65536 ∧ splitUpper (BitVec.ofNat 32 (a.toNat + d)) = splitUpper a) ∨
      (65536 ≤ (splitLower a).toNat + d ∧
        (splitUpper (BitVec.ofNat 32 (a.toNat + d))).toNat = (splitUpper a).toNat + 1 ∧
        (splitLower (BitVec.ofNat 32 (a.toNat + d))).toNat = (splitLower a).toNat + d - 65536) := by
  have hl := (splitLower a).isLt
  rw [← BitVec.toNat_inj, splitUpper_add_toNat h, splitLower_add_toNat h]
  rcases Nat.lt_or_ge ((splitLower a).toNat + d) 65536 with hin | hout
  · exact .inl ⟨hin, by rw [Nat.div_eq_of_lt hin, Nat.add_zero]⟩
  · have hdiv : ((splitLower a).toNat + d) / 65536 = 1 := by omega
    have hmod : ((splitLower a).toNat + d) % 65536 = (splitLower a).toNat + d - 65536 := by omega
    exact .inr ⟨hout, by rw [hdiv], hmod⟩

/-- Successive chunk starts are 32 addresses apart, so they skip no bank (R141). -/
theorem chunkBank_succ {a : Addr} {k : Nat} (h : chunkAddr a (k + 1) < 2 ^ 32) :
    chunkBank a (k + 1) = chunkBank a k ∨ (chunkBank a (k + 1)).toNat = (chunkBank a k).toNat + 1 := by
  have hsucc : chunkAddr a (k + 1) = chunkAddr a k + 32 := by unfold chunkAddr; omega
  have hk : (BitVec.ofNat 32 (chunkAddr a k)).toNat = chunkAddr a k := Nat.mod_eq_of_lt (by omega)
  have hcases := split_add_cases (a := BitVec.ofNat 32 (chunkAddr a k)) (d := 32) (by omega) (by decide)
  rw [hk, ← hsucc] at hcases
  exact hcases.imp (·.2) (·.2.1)

/-- Settles O39: the carry of the lower address gives the first laws, and it is at most one for the addresses of a chunk. -/
theorem splitAlongAddresses : Obligations.SplitAlongAddresses := by
  refine ⟨fun a d h => ?_, fun a k h => chunkBank_succ h⟩
  have hup := splitUpper_add_toNat h
  exact ⟨hup ▸ Nat.le_add_right _ _, hup, fun hd => split_add_cases h (by omega)⟩

end Sys2Proof.Block

namespace Sys2Proof

/-! ### The ELA line (R142, R143) -/

/-- The byte that brings `2 + 0 + 0 + 4 + (u >> 8) + (u & 0xFF)` to a multiple of 256 (R116). -/
theorem checksum_ela (u : Half) :
    checksum Config.elaByteCount 0#16 Config.tEla [high8 u, low8 u]
      = BitVec.ofInt 8 (250 - ((u.toNat / 256 : Nat) : Int) - ((u.toNat % 256 : Nat) : Int)) := by
  refine ((zeroSumLaw _ _ _ _ _).1 ?_).symm
  simp only [byteSum, high8_toNat, low8_toNat, BitVec.toNat_ofInt, BitVec.toNat_ofNat]
  omega

/-- Settles O40: the header's digits are literals, the payload is the bank's four digits, and the checksum is `checksum_ela`. -/
theorem elaLineClosedForm : Obligations.ElaLineClosedForm := by
  intro u
  refine ⟨?_, formatLine_length ..⟩
  rw [← checksum_ela]
  simp only [elaLine, formatLine, recordLine, hexBytes, hex4, List.append_nil]
  rfl

end Sys2Proof

namespace Sys2Proof.Machine

/-! ### The EMIT_ELA pass (R146) -/

/-- Settles O20: `emitEla` appends the line, and neither it nor `finish` touches a session register. -/
theorem emitElaEmissionEndsThePass : Obligations.EmitElaEmissionEndsThePass := by
  intro s hp ho
  refine ⟨_, exec_recEla_emitEla hp ho, ?_⟩
  simp [ho]

/-- A state whose next host move starts an EMIT_ELA pass, after the start step (R27). -/
def State.emitElaStarted (s : State) (c : Cmd) (rest : List HostMove) : State :=
  ((s.withHost rest).startPass .emitEla).loadEmitter c.upperAddress

/-- An EMIT_ELA pass, whole: the start step, then the emission of the operand's line (R146). -/
theorem runFor_two_emitEla {s : State} {c : Cmd} {rest : List HostMove} (hp : s.phase ≠ .run) (hc : c.select = 2#2)
    (hh : s.host = .present c :: rest) :
    runFor 2 s = .next ((s.emitElaStarted c rest).emitEla c.upperAddress).finish := by
  have hstart : step s = .next (s.emitElaStarted c rest) := step_emitEla hp hc hh
  have hemit := step_run_emitEla (s := s.emitElaStarted c rest) rfl rfl
  simp only [runFor, hstart, hemit]
  rfl

/-- Settles O22: the start step, then the two steps together. -/
theorem emitElaPassEmitsOneLine : Obligations.EmitElaPassEmitsOneLine := by
  intro s c rest hp hc hh
  refine ⟨⟨_, step_emitEla hp hc hh, by simp, by simp⟩, _, runFor_two_emitEla hp hc hh, ?_⟩
  simp [State.emitElaStarted]

end Sys2Proof.Machine

/-! The statements on the block encoder (spec/42_block_encoder.md): the registers of a running ENCODE pass in the terms of its closed form,
the steps of a pass, its lines, and the counts. -/

namespace Sys2Proof.Block

/-- An iteration that has begun has its whole OFFSET: the cut at the end of the data comes after the last one. -/
theorem offset_eq_mul_of_lt {off n k : Nat} (hoff : off = min (32 * k) n) (hlt : off < n) :
    off = 32 * k ∧ k < chunkCount n := by
  rw [lt_chunkCount]
  omega

theorem elaLines_of_eq {a : Addr} {k : Nat} (h : chunkBank a k = bankBefore a k) : elaLines a k = [] :=
  if_neg (not_not.2 h)

theorem elaLines_of_ne {a : Addr} {k : Nat} (h : chunkBank a k ≠ bankBefore a k) :
    elaLines a k = [elaLine (chunkBank a k)] :=
  if_pos h

end Sys2Proof.Block

namespace Sys2Proof.Machine

/-! ### The registers at the start of iteration k (R28, R170) -/

theorem State.upper_eq_chunkBank {s : State} {k : Nat} (h : s.offset = 32 * k) : s.upper = Block.chunkBank s.start k := by
  rw [State.upper, State.cur, h]
  rfl

theorem State.lower_eq_chunkLower {s : State} {k : Nat} (h : s.offset = 32 * k) : s.lower = Block.chunkLower s.start k := by
  rw [State.lower, State.cur, h]
  rfl

theorem State.chunk_eq_chunkLen {s : State} {k : Nat} (h : s.offset = 32 * k) : s.chunk = Block.chunkLen s.data.length k := by
  rw [State.chunk_eq, h]
  rfl

/-- The Data line of the step at OFFSET = 32k is the one the closed form gives iteration k. -/
theorem State.formatLine_chunk_eq_dataLine {s : State} {k : Nat} (h : s.offset = 32 * k) :
    formatLine (BitVec.ofNat 8 s.chunk) s.lower 0#8 (s.memRead s.offset s.chunk) = Block.dataLine s.start s.data k := by
  rw [State.lower_eq_chunkLower h, State.chunk_eq_chunkLen h, h]
  rfl

/-- In range, every byte still to be taken has a 32-bit address (R178). -/
theorem State.cur_lt_of_rangeOk {s : State} (hr : s.rangeOk) (hm : s.offset < s.data.length) :
    s.start.toNat + s.offset < 2 ^ 32 := by
  have hsum := hr.1
  omega

/-! ### What a step does (R27, R164 to R168, R262, R263) -/

/-- The state after the ELA step: the bank's line is out, and BANK records it (R164). -/
def State.elaStepped (s : State) : State := (s.emitEla s.upper).setBank s.upper

/-- The state after the Data step: the chunk's line is out, and OFFSET has passed the chunk (R165, R166). -/
def State.dataStepped (s : State) : State :=
  (s.emitFormat (BitVec.ofNat 8 s.chunk) s.lower 0#8 (s.memRead s.offset s.chunk)).advance s.chunk

/-- The state after the EOF step (R168). -/
def State.eofStepped (s : State) : State := (s.emit eofLine).finish

/-- A state whose next host move starts an ENCODE pass, after the start step (R161). -/
def State.encodeStarted (s : State) (c : Cmd) (rest : List HostMove) : State :=
  ((s.withHost rest).startPass .encode).loadEncode c.startAddress c.din

@[simp] theorem State.elaStepped_phase (s : State) : s.elaStepped.phase = s.phase := by simp [State.elaStepped]
@[simp] theorem State.elaStepped_op (s : State) : s.elaStepped.op = s.op := by simp [State.elaStepped]
@[simp] theorem State.elaStepped_start (s : State) : s.elaStepped.start = s.start := by simp [State.elaStepped]
@[simp] theorem State.elaStepped_data (s : State) : s.elaStepped.data = s.data := by simp [State.elaStepped]
@[simp] theorem State.elaStepped_offset (s : State) : s.elaStepped.offset = s.offset := by simp [State.elaStepped]
@[simp] theorem State.elaStepped_bank (s : State) : s.elaStepped.bank = s.upper := by simp [State.elaStepped]
@[simp] theorem State.elaStepped_out (s : State) : s.elaStepped.out = s.out ++ [elaLine s.upper] := by simp [State.elaStepped]
@[simp] theorem State.elaStepped_host (s : State) : s.elaStepped.host = s.host := by simp [State.elaStepped]
@[simp] theorem State.elaStepped_upper (s : State) : s.elaStepped.upper = s.upper := by
  simp only [State.upper, State.cur, State.elaStepped_start, State.elaStepped_offset]

@[simp] theorem State.dataStepped_phase (s : State) : s.dataStepped.phase = s.phase := by simp [State.dataStepped]
@[simp] theorem State.dataStepped_op (s : State) : s.dataStepped.op = s.op := by simp [State.dataStepped]
@[simp] theorem State.dataStepped_start (s : State) : s.dataStepped.start = s.start := by simp [State.dataStepped]
@[simp] theorem State.dataStepped_data (s : State) : s.dataStepped.data = s.data := by simp [State.dataStepped]
@[simp] theorem State.dataStepped_offset (s : State) : s.dataStepped.offset = s.offset + s.chunk := by simp [State.dataStepped]
@[simp] theorem State.dataStepped_bank (s : State) : s.dataStepped.bank = s.bank := by simp [State.dataStepped]
@[simp] theorem State.dataStepped_out (s : State) :
    s.dataStepped.out = s.out ++ [formatLine (BitVec.ofNat 8 s.chunk) s.lower 0#8 (s.memRead s.offset s.chunk)] := by
  simp [State.dataStepped]
@[simp] theorem State.dataStepped_eUpper (s : State) : s.dataStepped.eUpper = s.eUpper := by simp [State.dataStepped]
@[simp] theorem State.dataStepped_host (s : State) : s.dataStepped.host = s.host := by simp [State.dataStepped]

@[simp] theorem State.eofStepped_phase (s : State) : s.eofStepped.phase = .done := rfl
@[simp] theorem State.eofStepped_op (s : State) : s.eofStepped.op = s.op := rfl
@[simp] theorem State.eofStepped_start (s : State) : s.eofStepped.start = s.start := rfl
@[simp] theorem State.eofStepped_data (s : State) : s.eofStepped.data = s.data := rfl
@[simp] theorem State.eofStepped_offset (s : State) : s.eofStepped.offset = s.offset := rfl
@[simp] theorem State.eofStepped_bank (s : State) : s.eofStepped.bank = s.bank := rfl
@[simp] theorem State.eofStepped_out (s : State) : s.eofStepped.out = s.out ++ [eofLine] := rfl
@[simp] theorem State.eofStepped_host (s : State) : s.eofStepped.host = s.host := rfl

theorem decodeCmd_of_select_encode {c : Cmd} (hc : c.select = 0#2) : decodeCmd c = .encode c.startAddress c.din := by
  simp [decodeCmd, hc]

/-- The start step of an ENCODE pass in range (R161). -/
theorem exec_encode_of_ne_run {s : State} (hp : s.phase ≠ .run) {a : Addr} {d : List Byte} (hr : a.toNat + d.length ≤ 2 ^ 32) :
    exec (.encode a d) s = .next ((s.startPass .encode).loadEncode a d) := by
  rw [exec, execEncode, State.ifStartable_of_ne _ _ hp, if_pos hr]

/-- An ENCODE launch beyond the address space has no meaning (R178). -/
theorem exec_encode_beyond {s : State} (hp : s.phase ≠ .run) {a : Addr} {d : List Byte} (hr : 2 ^ 32 < a.toNat + d.length) :
    exec (.encode a d) s = .refused .addressRange := by
  rw [exec, execEncode, State.ifStartable_of_ne _ _ hp, if_neg (Nat.not_le.2 hr)]

/-- The 2-bit select has four values (R100, R104). -/
theorem select_cases (c : Cmd) : c.select = 0#2 ∨ c.select = 1#2 ∨ c.select = 2#2 ∨ c.select = 3#2 := by
  generalize c.select = b
  revert b
  decide

/-- What a command that is taken can do: it starts the pass it names, and an ENCODE pass only in range. -/
theorem step_present_cases {s t : State} {c : Cmd} {rest : List HostMove} (hp : s.phase ≠ .run) (hh : s.host = .present c :: rest)
    (h : step s = .next t) :
    (c.select = 0#2 ∧ c.startAddress.toNat + c.din.length ≤ 2 ^ 32 ∧ t = s.encodeStarted c rest) ∨
    (c.select = 1#2 ∧ t = s.formatStarted c rest) ∨
    (c.select = 2#2 ∧ t = s.emitElaStarted c rest) := by
  rcases select_cases c with hc | hc | hc | hc
  · by_cases hr : c.startAddress.toNat + c.din.length ≤ 2 ^ 32
    · rw [step_encode hp hc hh hr] at h
      exact .inl ⟨hc, hr, (Host.Outcome.next.inj h).symm⟩
    · rw [step_of_present s c rest hp hh, decodeCmd_of_select_encode hc,
        exec_encode_beyond (s := s.withHost rest) hp (Nat.not_le.1 hr)] at h
      cases h
  · rw [step_format hp hc hh] at h
    exact .inr (.inl ⟨hc, (Host.Outcome.next.inj h).symm⟩)
  · rw [step_emitEla hp hc hh] at h
    exact .inr (.inr ⟨hc, (Host.Outcome.next.inj h).symm⟩)
  · rw [step_of_present s c rest hp hh, decodeCmd_of_select_reserved hc] at h
    cases h

/-- What a step of a running pass can do (R169, R124, R146). -/
theorem step_run_cases {s t : State} (hp : s.phase = .run) (h : step s = .next t) :
    (s.op = .encode ∧ s.start.toNat + s.offset < 2 ^ 32 ∧ s.offset < s.data.length ∧ s.upper = s.bank ∧ t = s.dataStepped) ∨
    (s.op = .encode ∧ s.start.toNat + s.offset < 2 ^ 32 ∧ s.offset < s.data.length ∧ s.upper ≠ s.bank ∧ t = s.elaStepped) ∨
    (s.op = .encode ∧ s.data.length ≤ s.offset ∧ t = s.eofStepped) ∨
    (s.op = .format ∧ t = (s.emitFormat s.fmt.bc s.fmt.addr s.fmt.rt s.fmt.pay).finish) ∨
    (s.op = .emitEla ∧ t = (s.emitEla s.eUpper).finish) := by
  rcases State.run_cases s with ⟨ho, hr, hm, hb⟩ | ⟨ho, hr, hm, hb⟩ | ⟨ho, hm⟩ | ⟨ho, hr, hm⟩ | ho | ho
  · rw [step_run_data hp ho hr hm hb] at h
    exact .inl ⟨ho, hr, hm, hb, (Host.Outcome.next.inj h).symm⟩
  · rw [step_run_ela hp ho hr hm hb] at h
    exact .inr (.inl ⟨ho, hr, hm, hb, (Host.Outcome.next.inj h).symm⟩)
  · rw [step_run_eof hp ho hm] at h
    exact .inr (.inr (.inl ⟨ho, hm, (Host.Outcome.next.inj h).symm⟩))
  · rw [step_run_beyond hp ho hr hm] at h
    cases h
  · rw [step_run_format hp ho] at h
    exact .inr (.inr (.inr (.inl ⟨ho, (Host.Outcome.next.inj h).symm⟩)))
  · rw [step_run_emitEla hp ho] at h
    exact .inr (.inr (.inr (.inr ⟨ho, (Host.Outcome.next.inj h).symm⟩)))

/-! ### The invariant (R169, R170, R209, R210) -/

theorem State.rangeOk_dataStepped {s : State} (h : s.rangeOk) : s.dataStepped.rangeOk := by
  obtain ⟨hsum, hle⟩ := h
  rw [State.rangeOk, State.dataStepped_start, State.dataStepped_data, State.dataStepped_offset, State.chunk_eq]
  exact ⟨hsum, by omega⟩

theorem State.rangeOk_elaStepped {s : State} (h : s.rangeOk) : s.elaStepped.rangeOk := by
  rwa [State.rangeOk, State.elaStepped_start, State.elaStepped_data, State.elaStepped_offset]

/-- Where the Data step of iteration k is enabled, the iteration's ELA line is out if it needs one. -/
theorem State.out_of_progress_of_upper_eq {s : State} (h : s.progress) (hm : s.offset < s.data.length) (hb : s.upper = s.bank) :
    ∃ k, k < Block.chunkCount s.data.length ∧ s.offset = 32 * k ∧
      s.out = Block.linesUpTo s.start s.data k ++ Block.elaLines s.start k := by
  obtain ⟨k, -, hoff, hcase⟩ := h
  obtain ⟨hoff, hk⟩ := Block.offset_eq_mul_of_lt hoff hm
  refine ⟨k, hk, hoff, ?_⟩
  obtain ⟨hbank, hout⟩ | ⟨-, -, hout⟩ := hcase
  · rw [State.upper_eq_chunkBank hoff, hbank] at hb
    rw [hout, Block.elaLines_of_eq hb, List.append_nil]
  · exact hout

/-- Where the ELA step of iteration k is enabled, no line of the iteration is out, and it needs an ELA line. -/
theorem State.out_of_progress_of_upper_ne {s : State} (h : s.progress) (hm : s.offset < s.data.length) (hb : s.upper ≠ s.bank) :
    ∃ k, k < Block.chunkCount s.data.length ∧ s.offset = 32 * k ∧ s.out = Block.linesUpTo s.start s.data k ∧
      Block.chunkBank s.start k ≠ Block.bankBefore s.start k := by
  obtain ⟨k, -, hoff, hcase⟩ := h
  obtain ⟨hoff, hk⟩ := Block.offset_eq_mul_of_lt hoff hm
  rw [State.upper_eq_chunkBank hoff] at hb
  obtain ⟨hbank, hout⟩ | ⟨-, hbank, -⟩ := hcase
  · exact ⟨k, hk, hoff, hout, hbank ▸ hb⟩
  · exact absurd hbank.symm hb

/-- Where the EOF step is enabled, the lines of every iteration are out. -/
theorem State.out_of_progress_of_le {s : State} (h : s.progress) (hm : s.data.length ≤ s.offset) :
    s.out = Block.linesUpTo s.start s.data (Block.chunkCount s.data.length) := by
  obtain ⟨k, hk, hoff, hcase⟩ := h
  have hlast : ¬ k < Block.chunkCount s.data.length := by
    rw [Block.lt_chunkCount]
    omega
  obtain ⟨-, hout⟩ | ⟨hlt, -⟩ := hcase
  · rw [hout, Nat.le_antisymm hk (Nat.not_lt.1 hlast)]
  · exact absurd hlt hlast

/-- The Data step goes from iteration k to iteration k + 1. -/
theorem State.progress_dataStepped {s : State} (h : s.progress) (hm : s.offset < s.data.length) (hb : s.upper = s.bank) :
    s.dataStepped.progress := by
  obtain ⟨k, hk, hoff, hout⟩ := State.out_of_progress_of_upper_eq h hm hb
  simp only [State.progress, State.dataStepped_start, State.dataStepped_data, State.dataStepped_offset, State.dataStepped_bank,
    State.dataStepped_out]
  refine ⟨k + 1, hk, ?_, .inl ⟨?_, ?_⟩⟩
  · rw [State.chunk_eq]
    omega
  · rw [← hb, State.upper_eq_chunkBank hoff, Block.bankBefore]
  · rw [hout, State.formatLine_chunk_eq_dataLine hoff, List.append_assoc, Block.linesUpTo, Block.chunkLines]

/-- The ELA step stays in iteration k, and its line is the iteration's ELA line. -/
theorem State.progress_elaStepped {s : State} (h : s.progress) (hm : s.offset < s.data.length) (hb : s.upper ≠ s.bank) :
    s.elaStepped.progress := by
  obtain ⟨k, hk, hoff, hout, hne⟩ := State.out_of_progress_of_upper_ne h hm hb
  simp only [State.progress, State.elaStepped_start, State.elaStepped_data, State.elaStepped_offset, State.elaStepped_bank,
    State.elaStepped_out]
  refine ⟨k, Nat.le_of_lt hk, ?_, .inr ⟨hk, State.upper_eq_chunkBank hoff, ?_⟩⟩
  · omega
  · rw [hout, State.upper_eq_chunkBank hoff, Block.elaLines_of_ne hne]

/-- A step of a running pass keeps the invariant. -/
theorem State.inv_of_step_run {s t : State} (hp : s.phase = .run) (hinv : s.Inv) (h : step s = .next t) : t.Inv := by
  rcases step_run_cases hp h with
    ⟨ho, -, hm, hb, rfl⟩ | ⟨ho, -, hm, hb, rfl⟩ | ⟨ho, hm, rfl⟩ | ⟨ho, rfl⟩ | ⟨ho, rfl⟩
  · obtain ⟨hr, hprog⟩ := (State.inv_run_encode hp ho).1 hinv
    exact (State.inv_run_encode (by simpa using hp) (by simpa using ho)).2
      ⟨State.rangeOk_dataStepped hr, State.progress_dataStepped hprog hm hb⟩
  · obtain ⟨hr, hprog⟩ := (State.inv_run_encode hp ho).1 hinv
    exact (State.inv_run_encode (by simpa using hp) (by simpa using ho)).2
      ⟨State.rangeOk_elaStepped hr, State.progress_elaStepped hprog hm hb⟩
  · obtain ⟨-, hprog⟩ := (State.inv_run_encode hp ho).1 hinv
    simp only [State.Inv, State.eofStepped_phase, State.eofStepped_op, ho, State.eofStepped_out,
      State.out_of_progress_of_le hprog hm]
    rfl
  · have hout : s.out = [] := by simpa only [State.Inv, hp, ho] using hinv
    simp [State.Inv, ho, hout]
  · have hout : s.out = [] := by simpa only [State.Inv, hp, ho] using hinv
    simp [State.Inv, ho, hout]

/-- A pass that has just started meets the invariant: an ENCODE pass is at iteration 0, and the others have emitted nothing. -/
theorem State.inv_of_step_present {s t : State} {c : Cmd} {rest : List HostMove} (hp : s.phase ≠ .run)
    (hh : s.host = .present c :: rest) (h : step s = .next t) : t.Inv := by
  rcases step_present_cases hp hh h with ⟨-, hr, rfl⟩ | ⟨-, rfl⟩ | ⟨-, rfl⟩
  · exact ⟨⟨hr, Nat.zero_le _⟩, 0, Nat.zero_le _, (Nat.zero_min _).symm, .inl ⟨rfl, rfl⟩⟩
  · exact rfl
  · exact rfl

/-- Settles O26: by what a step does: a record step, nothing, a reset, or the start of a pass. -/
theorem invariantKeptByEveryStep : Obligations.InvariantKeptByEveryStep := by
  intro s t hinv h
  by_cases hp : s.phase = .run
  · exact State.inv_of_step_run hp hinv h
  · match hh : s.host with
    | [] =>
      rw [step_idle s hp hh] at h
      exact Host.Outcome.next.inj h ▸ hinv
    | .reset :: rest =>
      rw [step_reset s rest hp hh] at h
      exact Host.Outcome.next.inj h ▸ (rfl : (s.withHost rest).applyReset.out = [])
    | .present c :: rest => exact State.inv_of_step_present hp hh h

/-! ### The record that is due (R169, R124, R146) -/

/-- Settles O5: a record is due only while a pass runs, and then the step is its meaning. -/
theorem stepRunsDueRecord : Obligations.StepRunsDueRecord := by
  intro s i hd
  have hp := State.phase_of_due hd
  exact ⟨hp, step_of_due s i hp hd⟩

theorem State.due_of_ne_run {s : State} (hp : s.phase ≠ .run) : s.due = none :=
  Option.eq_none_iff_forall_ne_some.2 fun _ hd => hp (State.phase_of_due hd)

/-- Settles O6: the three cases of `run_cases` that keep the range, and the two other passes. -/
theorem dueRecordIsTheEnabledStep : Obligations.DueRecordIsTheEnabledStep := by
  refine fun s => ⟨State.due_of_ne_run, fun hp ho hr => ⟨fun hm => ?_, fun hm hb => ?_, fun hm hb => ?_⟩, fun hp ho => ?_, ?_⟩
  · exact State.due_eof hp ho hm.ge
  · exact State.due_ela hp ho (State.cur_lt_of_rangeOk hr hm) hm hb
  · exact State.due_data hp ho (State.cur_lt_of_rangeOk hr hm) hm hb
  · exact ⟨_, State.due_format hp ho, decodeLine_formatLine ..⟩
  · exact State.due_emitEla

/-- Settles O8: the start step is `startPass` and `loadEncode`, whose fields are the ones stated. -/
theorem encodeStartLoadsThePass : Obligations.EncodeStartLoadsThePass :=
  ⟨fun _ => decodeCmd_of_select_encode, fun _ _ _ hp hr => exec_encode_of_ne_run hp hr⟩

/-- Settles O11: the range test of the start step fails. -/
theorem encodeBeyondTopIsRefused : Obligations.EncodeBeyondTopIsRefused :=
  fun _ _ _ hp hr => exec_encode_beyond hp hr

theorem State.ifDue_of_due_ne {s : State} {i : Instr} (h : s.due ≠ some i) (k : State → State) :
    s.ifDue i k = .refused .recordNotDue :=
  if_neg h

/-- Settles O14: the meanings of the three rows ask whether they are due, that of REC_GENERIC whether its fields are in the latches. -/
theorem recordNotDueIsRefused : Obligations.RecordNotDueIsRefused := by
  refine fun s => ⟨fun bc addr pay h => ?_, fun h => ?_, fun u h => ?_, fun _ _ _ _ h => if_neg h⟩
  · rw [exec, execRecData, State.ifDue_of_due_ne h]
  · rw [exec, execRecEof, State.ifDue_of_due_ne h]
  · rw [exec, execRecEla, State.ifDue_of_due_ne h]

/-! ### The three steps of an ENCODE pass (R164 to R168) -/

/-- The bytes of the chunk are those of DATA from OFFSET on (R50). -/
theorem State.memRead_getElem? (s : State) {off n j : Nat} (h : j < n) : (s.memRead off n)[j]? = s.data[off + j]? := by
  rw [State.memRead, List.getElem?_take_of_lt h, List.getElem?_drop]

/-- Settles O15: the step's state is `dataStepped`, and CHUNK is positive while bytes remain. -/
theorem dataStepEmitsChunkAndAdvances : Obligations.DataStepEmitsChunkAndAdvances := by
  intro s hp ho hr hm hb
  have hpos : 1 ≤ s.chunk := by
    rw [State.chunk_eq]
    omega
  exact ⟨s.dataStepped, exec_recData_encode hp ho hr hm hb, s.dataStepped_out, s.dataStepped_offset, s.chunk_eq, hpos, s.chunk_toNat,
    s.memRead_length, fun _ => s.memRead_getElem?, by simp [hp, ho]⟩

@[simp] theorem State.elaStepped_lower (s : State) : s.elaStepped.lower = s.lower := by
  simp only [State.lower, State.cur, State.elaStepped_start, State.elaStepped_offset]

@[simp] theorem State.elaStepped_chunk (s : State) : s.elaStepped.chunk = s.chunk := by
  simp only [State.chunk_eq, State.elaStepped_data, State.elaStepped_offset]

@[simp] theorem State.elaStepped_memRead (s : State) (off n : Nat) : s.elaStepped.memRead off n = s.memRead off n := by
  simp only [State.memRead, State.elaStepped_data]

/-- Settles O16: the step's state is `elaStepped`, whose BANK is UPPER and whose derived values are those before the step. -/
theorem elaStepEmitsBankAndDataStepFollows : Obligations.ElaStepEmitsBankAndDataStepFollows := by
  intro s hp ho hr hm hb
  have hhit : s.elaStepped.upper = s.elaStepped.bank := by rw [State.elaStepped_upper, State.elaStepped_bank]
  have hdue := State.due_data (s := s.elaStepped) (by simpa using hp) (by simpa using ho) (by simpa using hr) (by simpa using hm) hhit
  refine ⟨s.elaStepped, exec_recEla_encode hp ho hr hm hb, s.elaStepped_out, s.elaStepped_bank, ?_⟩
  simp [hp, ho, hdue, State.bankMiss_eq_false]

/-- Settles O17: the step's state is `eofStepped`, in which no pass runs. -/
theorem eofStepEndsThePass : Obligations.EofStepEndsThePass :=
  fun _ hp ho hm => ⟨exec_recEof_encode hp ho hm, rfl, eofLine_eq, rfl⟩

/-! ### One step is enabled in a pass, and every pass ends (R167, R169, R237) -/

/-- A running pass that keeps its range has a step: the record that is due. -/
theorem exists_due_next {s : State} (hp : s.phase = .run) (hr : s.op = .encode → s.rangeOk) :
    ∃ i t, s.due = some i ∧ exec i s = .next t := by
  rcases State.run_cases s with ⟨ho, hlt, hm, hb⟩ | ⟨ho, hlt, hm, hb⟩ | ⟨ho, hm⟩ | ⟨ho, hbeyond, hm⟩ | ho | ho
  · exact ⟨_, _, State.due_data hp ho hlt hm hb, exec_recData_encode hp ho hlt hm hb⟩
  · exact ⟨_, _, State.due_ela hp ho hlt hm hb, exec_recEla_encode hp ho hlt hm hb⟩
  · exact ⟨_, _, State.due_eof hp ho hm, exec_recEof_encode hp ho hm⟩
  · exact absurd (State.cur_lt_of_rangeOk (hr ho) hm) (Nat.not_lt.2 hbeyond)
  · exact ⟨_, _, State.due_format hp ho, exec_due_format hp ho⟩
  · exact ⟨_, _, State.due_emitEla hp ho, exec_recEla_emitEla hp ho⟩

/-- In a FORMAT pass REC_GENERIC of the latches has the next state of the record that is due. -/
theorem exec_recGeneric_of_due {s t : State} {i : Instr} (hp : s.phase = .run) (ho : s.op = .format) (hd : s.due = some i)
    (h : exec i s = .next t) : exec (.recGeneric s.fmt.bc s.fmt.addr s.fmt.rt s.fmt.pay) s = .next t := by
  rw [State.due_format hp ho] at hd
  rw [exec_recGeneric_format hp ho, ← h, exec_of_classify_format hp ho (Option.some.inj hd)]

/-- Settles O27: the due record's next state is the only one, since no instruction but it and REC_GENERIC of the latches has any. -/
theorem exactlyOneStepEnabledInAPass : Obligations.ExactlyOneStepEnabledInAPass := by
  intro s hp hr
  obtain ⟨i, t, hd, ht⟩ := exists_due_next hp hr
  refine ⟨i, t, hd, ht, fun ho => exec_recGeneric_of_due hp ho hd ht, fun j u hu => ?_⟩
  rcases due_of_exec_next hp hu with hj | ⟨ho, rfl⟩
  · obtain rfl : i = j := Option.some.inj (hd.symm.trans hj)
    exact ⟨Host.Outcome.next.inj (hu.symm.trans ht), .inl rfl⟩
  · exact ⟨Host.Outcome.next.inj (hu.symm.trans (exec_recGeneric_of_due hp ho hd ht)), .inr ⟨ho, rfl⟩⟩

theorem runFor_succ_of_step {s t : State} (h : step s = .next t) (k : Nat) : runFor (k + 1) s = runFor k t := by
  rw [runFor, h]

theorem exists_step_of_runFor_succ {s t : State} {k : Nat} (h : runFor (k + 1) s = .next t) :
    ∃ u, step s = .next u ∧ runFor k u = .next t := by
  cases hs : step s with
  | next u => exact ⟨u, rfl, (runFor_succ_of_step hs k).symm.trans h⟩
  | fault r => nomatch r
  | refused r =>
    rw [runFor, hs] at h
    cases h

theorem runFor_add {m : Nat} {s t : State} (h : runFor m s = .next t) (n : Nat) : runFor (m + n) s = runFor n t := by
  induction m generalizing s with
  | zero =>
    cases h
    rw [Nat.zero_add]
  | succ m ih =>
    obtain ⟨u, hu, hrun⟩ := exists_step_of_runFor_succ h
    rw [Nat.add_right_comm, runFor_succ_of_step hu, ih hrun]

theorem State.remain_dataStepped (s : State) : s.dataStepped.remain = s.remain - 32 := by
  simp only [State.remain, State.dataStepped_data, State.dataStepped_offset, State.chunk_eq]
  omega

theorem State.remain_elaStepped (s : State) : s.elaStepped.remain = s.remain := by
  simp only [State.remain, State.elaStepped_data, State.elaStepped_offset]

theorem runFor_one_of_step {s t : State} (h : step s = .next t) : runFor 1 s = .next t :=
  runFor_succ_of_step h 0

/-- While bytes remain, a Data step follows, either at once or after one ELA step. -/
theorem exists_runFor_data {s : State} (hp : s.phase = .run) (ho : s.op = .encode) (hr : s.rangeOk) (hm : s.offset < s.data.length) :
    ∃ j t, j ≤ 2 ∧ runFor j s = .next t ∧ t.phase = .run ∧ t.op = .encode ∧ t.rangeOk ∧ t.remain = s.remain - 32 := by
  have hlt := State.cur_lt_of_rangeOk hr hm
  by_cases hb : s.upper = s.bank
  · exact ⟨1, s.dataStepped, by decide, runFor_one_of_step (step_run_data hp ho hlt hm hb), by simpa using hp, by simpa using ho,
      State.rangeOk_dataStepped hr, s.remain_dataStepped⟩
  · have hela : step s = .next s.elaStepped := step_run_ela hp ho hlt hm hb
    have hdata : step s.elaStepped = .next s.elaStepped.dataStepped :=
      step_run_data (by simpa using hp) (by simpa using ho) (by simpa using hlt) (by simpa using hm) (by simp)
    refine ⟨2, s.elaStepped.dataStepped, le_rfl, ?_, by simpa using hp, by simpa using ho,
      State.rangeOk_dataStepped (State.rangeOk_elaStepped hr), ?_⟩
    · rw [runFor_succ_of_step hela, runFor_one_of_step hdata]
    · rw [State.remain_dataStepped, State.remain_elaStepped]

/-- Every chunk takes at most two steps, and the EOF step ends the pass. -/
theorem exists_runFor_done_of_encode (n : Nat) {s : State} (hp : s.phase = .run) (ho : s.op = .encode) (hr : s.rangeOk)
    (hn : Block.chunkCount s.remain = n) : ∃ k t, k ≤ 2 * n + 1 ∧ runFor k s = .next t ∧ t.phase = .done := by
  induction n generalizing s with
  | zero =>
    have hm : s.data.length ≤ s.offset := by
      unfold Block.chunkCount State.remain at hn
      omega
    exact ⟨1, s.eofStepped, le_rfl, runFor_one_of_step (step_run_eof hp ho hm), rfl⟩
  | succ n ih =>
    have hm : s.offset < s.data.length := by
      unfold Block.chunkCount State.remain at hn
      omega
    obtain ⟨j, t, hj, hrun, hpt, hot, hrt, hremain⟩ := exists_runFor_data hp ho hr hm
    have hleft : Block.chunkCount t.remain = n := by
      rw [hremain]
      unfold Block.chunkCount at hn ⊢
      omega
    obtain ⟨k, u, hk, hrun', hdone⟩ := ih hpt hot hrt hleft
    exact ⟨j + k, u, by omega, (runFor_add hrun k).trans hrun', hdone⟩

/-- Settles O30: an ENCODE pass by its chunks, the other two passes in one step. -/
theorem everyPassEnds : Obligations.EveryPassEnds := by
  intro s hp hr
  cases ho : s.op with
  | encode => exact exists_runFor_done_of_encode _ hp ho (hr ho) rfl
  | format => exact ⟨1, _, by omega, runFor_one_of_step (step_run_format hp ho), rfl⟩
  | emitEla => exact ⟨1, _, by omega, runFor_one_of_step (step_run_emitEla hp ho), rfl⟩

/-! ### The result of a pass does not depend on what ran before (R180) -/

/-- Two engines in the same pass, or after it: the same lines are out, and the registers that the rest of the pass reads agree. -/
structure State.SamePass (s s' : State) : Prop where
  phase : s'.phase = s.phase
  op : s'.op = s.op
  out : s'.out = s.out
  host : s'.host = s.host
  encode : s.op = .encode → s'.start = s.start ∧ s'.data = s.data ∧ s'.offset = s.offset ∧ s'.bank = s.bank
  format : s.phase = .run → s.op = .format →
    s'.fmt.bc = s.fmt.bc ∧ s'.fmt.addr = s.fmt.addr ∧ s'.fmt.rt = s.fmt.rt ∧ s'.fmt.pay = s.fmt.pay
  emitEla : s.phase = .run → s.op = .emitEla → s'.eUpper = s.eUpper

/-- A command makes the same pass of any two states that are not running one. -/
theorem State.SamePass.of_step_present {s s' t : State} {c : Cmd} {rest : List HostMove} (hp : s.phase ≠ .run) (hp' : s'.phase ≠ .run)
    (hh : s.host = .present c :: rest) (hh' : s'.host = .present c :: rest) (h : step s = .next t) :
    ∃ t', step s' = .next t' ∧ t.SamePass t' := by
  rcases step_present_cases hp hh h with ⟨hc, hr, rfl⟩ | ⟨hc, rfl⟩ | ⟨hc, rfl⟩
  · exact ⟨_, step_encode hp' hc hh' hr, rfl, rfl, rfl, rfl, fun _ => ⟨rfl, rfl, rfl, rfl⟩, nofun, nofun⟩
  · exact ⟨_, step_format hp' hc hh', rfl, rfl, rfl, rfl, nofun, fun _ _ => ⟨rfl, rfl, rfl, rfl⟩, nofun⟩
  · exact ⟨_, step_emitEla hp' hc hh', rfl, rfl, rfl, rfl, nofun, nofun, fun _ _ => rfl⟩

/-- UPPER depends on START and OFFSET alone (R28). -/
theorem State.upper_congr {s s' : State} (hs : s'.start = s.start) (ho : s'.offset = s.offset) : s'.upper = s.upper := by
  simp only [State.upper, State.cur, hs, ho]

/-- The line of a Data step depends on START, DATA and OFFSET alone. -/
theorem State.SamePass.dataStepped {s s' : State} (h : s.SamePass s') (ho : s.op = .encode) : s.dataStepped.SamePass s'.dataStepped := by
  obtain ⟨hstart, hdata, hoff, hbank⟩ := h.encode ho
  have hchunk : s'.chunk = s.chunk := by simp only [State.chunk_eq, hdata, hoff]
  have hlower : s'.lower = s.lower := by simp only [State.lower, State.cur, hstart, hoff]
  have hread : s'.memRead s.offset s.chunk = s.memRead s.offset s.chunk := by simp only [State.memRead, hdata]
  constructor <;> simp [h.phase, h.op, h.out, h.host, ho, hstart, hdata, hoff, hbank, hchunk, hlower, hread]

theorem State.SamePass.elaStepped {s s' : State} (h : s.SamePass s') (ho : s.op = .encode) : s.elaStepped.SamePass s'.elaStepped := by
  obtain ⟨hstart, hdata, hoff, -⟩ := h.encode ho
  have hupper := State.upper_congr hstart hoff
  constructor <;> simp [h.phase, h.op, h.out, h.host, ho, hstart, hdata, hoff, hupper]

/-- Whatever step one engine makes, the other makes the same one. -/
theorem State.SamePass.step {s s' t : State} (h : s.SamePass s') (hs : step s = .next t) :
    ∃ t', step s' = .next t' ∧ t.SamePass t' := by
  by_cases hp : s.phase = .run
  · have hp' : s'.phase = .run := h.phase.trans hp
    rcases step_run_cases hp hs with ⟨ho, hr, hm, hb, rfl⟩ | ⟨ho, hr, hm, hb, rfl⟩ | ⟨ho, hm, rfl⟩ | ⟨ho, rfl⟩ | ⟨ho, rfl⟩
    · obtain ⟨hstart, hdata, hoff, hbank⟩ := h.encode ho
      have hupper := State.upper_congr hstart hoff
      exact ⟨_, step_run_data hp' (h.op.trans ho) (by rwa [hstart, hoff]) (by rwa [hoff, hdata]) (by rwa [hupper, hbank]),
        State.SamePass.dataStepped h ho⟩
    · obtain ⟨hstart, hdata, hoff, hbank⟩ := h.encode ho
      have hupper := State.upper_congr hstart hoff
      exact ⟨_, step_run_ela hp' (h.op.trans ho) (by rwa [hstart, hoff]) (by rwa [hoff, hdata]) (by rwa [hupper, hbank]),
        State.SamePass.elaStepped h ho⟩
    · obtain ⟨hstart, hdata, hoff, hbank⟩ := h.encode ho
      refine ⟨_, step_run_eof hp' (h.op.trans ho) (by rwa [hdata, hoff]), ?_⟩
      constructor <;> simp [h.op, h.out, h.host, ho, hstart, hdata, hoff, hbank]
    · obtain ⟨hbc, haddr, hrt, hpay⟩ := h.format hp ho
      refine ⟨_, step_run_format hp' (h.op.trans ho), ?_⟩
      constructor <;> simp [h.op, h.out, h.host, ho, hbc, haddr, hrt, hpay]
    · have hupper := h.emitEla hp ho
      refine ⟨_, step_run_emitEla hp' (h.op.trans ho), ?_⟩
      constructor <;> simp [h.op, h.out, h.host, ho, hupper]
  · have hp' : s'.phase ≠ .run := fun hrun => hp (h.phase.symm.trans hrun)
    match hh : s.host with
    | [] =>
      rw [step_idle s hp hh] at hs
      exact ⟨s', step_idle s' hp' (h.host.trans hh), Host.Outcome.next.inj hs ▸ h⟩
    | .reset :: rest =>
      rw [step_reset s rest hp hh] at hs
      cases hs
      exact ⟨_, step_reset s' rest hp' (h.host.trans hh), rfl, rfl, rfl, rfl, fun _ => ⟨rfl, rfl, rfl, rfl⟩, nofun, nofun⟩
    | .present c :: rest => exact State.SamePass.of_step_present hp hp' hh (h.host.trans hh) hs

theorem State.SamePass.runFor {s s' t : State} {k : Nat} (h : s.SamePass s') (hs : runFor k s = .next t) :
    ∃ t', runFor k s' = .next t' ∧ t.SamePass t' := by
  induction k generalizing s s' with
  | zero =>
    cases hs
    exact ⟨s', rfl, h⟩
  | succ k ih =>
    obtain ⟨u, hu, hrun⟩ := exists_step_of_runFor_succ hs
    obtain ⟨u', hu', hsame⟩ := h.step hu
    obtain ⟨t', ht', hsame'⟩ := ih hsame hrun
    exact ⟨t', (runFor_succ_of_step hu' k).trans ht', hsame'⟩

/-- Settles O31: after the start step both engines are in the same pass, and stay in it. -/
theorem passIsIndependentOfHistory : Obligations.PassIsIndependentOfHistory := by
  intro s s' c k t hp hp' hh hh' hrun
  obtain ⟨u, hu, hrest⟩ := exists_step_of_runFor_succ hrun
  obtain ⟨u', hu', hsame⟩ := State.SamePass.of_step_present hp hp' hh hh' hu
  obtain ⟨t', ht', hsame'⟩ := hsame.runFor hrest
  exact ⟨t', (runFor_succ_of_step hu' k).trans ht', hsame'.out, hsame'.phase⟩

end Sys2Proof.Machine

namespace Sys2Proof.Block

/-! ### The lines of an ENCODE result, counted (R170, R171) -/

theorem dataPayloads_linesUpTo_length (a : Addr) (d : List Byte) (k : Nat) : (dataPayloads (linesUpTo a d k)).length = k := by
  induction k with
  | zero => rfl
  | succ k ih => simp [linesUpTo, chunkLines, ih]

theorem elaBanks_elaLines_length (a : Addr) (k : Nat) : (elaBanks (elaLines a k)).length = (elaLines a k).length := by
  unfold elaLines
  split <;> simp [elaBanks]

theorem elaBanks_linesUpTo_succ (a : Addr) (d : List Byte) (k : Nat) :
    elaBanks (linesUpTo a d (k + 1)) = elaBanks (linesUpTo a d k) ++ elaBanks (elaLines a k) := by
  simp [linesUpTo, chunkLines]

/-- Every iteration has its Data line, and an ELA line besides where the bank changes. -/
theorem linesUpTo_length (a : Addr) (d : List Byte) (k : Nat) :
    (linesUpTo a d k).length = k + (elaBanks (linesUpTo a d k)).length := by
  induction k with
  | zero => rfl
  | succ k ih =>
    rw [elaBanks_linesUpTo_succ, List.length_append, elaBanks_elaLines_length]
    simp only [linesUpTo, chunkLines, List.length_append, List.length_singleton, ih]
    omega

theorem elaLine_length (u : Half) : (elaLine u).length = 15 := formatLine_length ..

theorem dataLine_length (a : Addr) (d : List Byte) (k : Nat) : (dataLine a d k).length = 11 + 2 * chunkLen d.length k := by
  rw [dataLine, formatLine_length, chunkBytes_length]

theorem elaLines_map_length_sum (a : Addr) (k : Nat) :
    ((elaLines a k).map List.length).sum = 15 * (elaBanks (elaLines a k)).length := by
  rw [elaBanks_elaLines_length]
  unfold elaLines
  split <;> simp [elaLine_length]

/-- The characters of the first k iterations: 11 and two to a byte for each Data line, 15 for each ELA line. -/
theorem linesUpTo_map_length_sum (a : Addr) (d : List Byte) (k : Nat) :
    ((linesUpTo a d k).map List.length).sum
      = 11 * k + 2 * min (32 * k) d.length + 15 * (elaBanks (linesUpTo a d k)).length := by
  induction k with
  | zero => rfl
  | succ k ih =>
    have hchunk : min (32 * (k + 1)) d.length = min (32 * k) d.length + chunkLen d.length k := by
      unfold chunkLen
      omega
    rw [elaBanks_linesUpTo_succ, List.length_append, hchunk]
    simp only [linesUpTo, chunkLines, List.map_append, List.sum_append, ih, elaLines_map_length_sum, List.map_singleton,
      List.sum_singleton, dataLine_length]
    omega

/-! ### The banks of the ELA lines (R171, R174, R205) -/

theorem chunkBank_le {a : Addr} {j k : Nat} (hjk : j ≤ k) (h : chunkAddr a k < 2 ^ 32) :
    (chunkBank a j).toNat ≤ (chunkBank a k).toNat := by
  have haddr : chunkAddr a j ≤ chunkAddr a k := by unfold chunkAddr; omega
  rw [chunkBank_toNat h, chunkBank_toNat (haddr.trans_lt h)]
  exact Nat.div_le_div_right haddr

/-- The banks up to iteration k are the consecutive ones from the first that needs an ELA line to `u_k`. -/
theorem elaBanks_linesUpTo_succ_map_toNat {a : Addr} {k : Nat} (d : List Byte) (h : chunkAddr a k < 2 ^ 32) :
    (elaBanks (linesUpTo a d (k + 1))).map BitVec.toNat
      = List.range' (max (chunkBank a 0).toNat 1) ((chunkBank a k).toNat + 1 - max (chunkBank a 0).toNat 1) := by
  induction k with
  | zero =>
    rw [elaBanks_linesUpTo_succ, elaBanks_elaLines]
    by_cases hz : chunkBank a 0 = 0#16
    · simp [hz, bankBefore, linesUpTo, elaBanks]
    · have hpos : 1 ≤ (chunkBank a 0).toNat := by
        rw [← BitVec.toNat_inj] at hz
        exact Nat.pos_of_ne_zero hz
      simp [hz, bankBefore, linesUpTo, elaBanks, Nat.max_eq_left hpos]
  | succ k ih =>
    have hk : chunkAddr a k < 2 ^ 32 := by unfold chunkAddr at h ⊢; omega
    have hle := chunkBank_le (Nat.zero_le k) hk
    rw [elaBanks_linesUpTo_succ, List.map_append, ih hk, elaBanks_elaLines, bankBefore]
    rcases chunkBank_succ h with heq | hsucc
    · simp [heq]
    · have hne : chunkBank a (k + 1) ≠ chunkBank a k := fun heq => by
        rw [heq] at hsucc
        omega
      have hcount : (chunkBank a k).toNat + 1 + 1 - max (chunkBank a 0).toNat 1
          = (chunkBank a k).toNat + 1 - max (chunkBank a 0).toNat 1 + 1 := by
        omega
      have hlast : max (chunkBank a 0).toNat 1 + 1 * ((chunkBank a k).toNat + 1 - max (chunkBank a 0).toNat 1)
          = (chunkBank a k).toNat + 1 := by
        omega
      rw [if_pos hne, hsucc, List.map_singleton, hsucc, hcount, List.range'_concat, hlast]

theorem elaBanks_encodeLines (a : Addr) (d : List Byte) :
    elaBanks (encodeLines a d) = elaBanks (linesUpTo a d (chunkCount d.length)) := by
  simp [encodeLines, elaBanks]

theorem chunkCount_pos {n : Nat} (hn : 0 < n) : 0 < chunkCount n := lt_chunkCount.2 hn

/-- E counts the banks from the first that needs an ELA line to the last. -/
theorem elaCount_of_pos {a : Addr} {n : Nat} (hr : a.toNat + n ≤ 2 ^ 32) (hn : 0 < n) :
    elaCount a n = (chunkBank a (chunkCount n - 1)).toNat + 1 - max (chunkBank a 0).toNat 1 := by
  have hle := chunkBank_le (Nat.zero_le _) (chunkAddr_lt hr (Nat.sub_one_lt (chunkCount_pos hn).ne'))
  rw [elaCount, if_neg hn.ne']
  by_cases hz : chunkBank a 0 = 0#16
  · simp [hz]
  · have hpos : (chunkBank a 0).toNat ≠ 0 := fun h => hz (BitVec.eq_of_toNat_eq h)
    rw [if_neg hz]
    omega

/-- The banks of an ENCODE result are the E consecutive ones from `max(u_0, 1)` on. -/
theorem elaBanks_encodeLines_map_toNat {a : Addr} {d : List Byte} (hr : a.toNat + d.length ≤ 2 ^ 32) :
    (elaBanks (encodeLines a d)).map BitVec.toNat = List.range' (max (chunkBank a 0).toNat 1) (elaCount a d.length) := by
  rw [elaBanks_encodeLines]
  rcases Nat.eq_zero_or_pos d.length with hn | hn
  · simp [hn, elaCount, chunkCount, linesUpTo, elaBanks]
  · have hlast : chunkCount d.length - 1 < chunkCount d.length := Nat.sub_one_lt (chunkCount_pos hn).ne'
    rw [elaCount_of_pos hr hn, ← elaBanks_linesUpTo_succ_map_toNat d (chunkAddr_lt hr hlast), Nat.sub_add_cancel (chunkCount_pos hn)]

theorem elaBanks_encodeLines_length {a : Addr} {d : List Byte} (hr : a.toNat + d.length ≤ 2 ^ 32) :
    (elaBanks (encodeLines a d)).length = elaCount a d.length := by
  rw [← List.length_map, elaBanks_encodeLines_map_toNat hr, List.length_range']

/-- K Data lines and E ELA lines come before the EOF line. -/
theorem linesUpTo_chunkCount_length {a : Addr} {d : List Byte} (hr : a.toNat + d.length ≤ 2 ^ 32) :
    (linesUpTo a d (chunkCount d.length)).length = chunkCount d.length + elaCount a d.length := by
  rw [linesUpTo_length, ← elaBanks_encodeLines, elaBanks_encodeLines_length hr]

/-- Settles O43: the counts of the lines before the EOF line, and the one line and eleven characters of its own. -/
theorem encodeResultCounts : Obligations.EncodeResultCounts := by
  intro a d hr
  have hbytes : min (32 * chunkCount d.length) d.length = d.length := by unfold chunkCount; omega
  have hchars : ((encodeLines a d).map List.length).sum
      = ((linesUpTo a d (chunkCount d.length)).map List.length).sum + 11 := by
    simp [encodeLines, eofLine]
  refine ⟨?_, elaBanks_encodeLines_length hr, ?_, ?_⟩
  · rw [encodeLines, dataPayloads_append, List.length_append, dataPayloads_linesUpTo_length]
    simp [dataPayloads, chunkCount]
  · rw [encodeLines, List.length_append, linesUpTo_chunkCount_length hr, List.length_singleton, chunkCount]
  · rw [hchars, linesUpTo_map_length_sum, hbytes, ← elaBanks_encodeLines, elaBanks_encodeLines_length hr, chunkCount]

/-! ### The first line, and a chunk at a bank boundary (R57, R173 to R177) -/

/-- An ELA line in an ENCODE result is for a bank other than 0, and not beyond the last chunk start's. -/
theorem toNat_of_elaLine_mem {a : Addr} {d : List Byte} {u : Half} (hr : a.toNat + d.length ≤ 2 ^ 32) (hn : 0 < d.length)
    (h : elaLine u ∈ encodeLines a d) : 1 ≤ u.toNat ∧ u.toNat ≤ (chunkBank a (chunkCount d.length - 1)).toNat := by
  have hbank : u ∈ elaBanks (encodeLines a d) := List.mem_filterMap.2 ⟨_, h, elaBank?_elaLine u⟩
  have hrange : u.toNat ∈ List.range' (max (chunkBank a 0).toNat 1) (elaCount a d.length) :=
    elaBanks_encodeLines_map_toNat hr ▸ List.mem_map_of_mem hbank
  rw [elaCount_of_pos hr hn, List.mem_range'_1] at hrange
  omega

/-- The first line of a pass is the first line of iteration 0. -/
theorem linesUpTo_succ_head? (a : Addr) (d : List Byte) (k : Nat) :
    (linesUpTo a d (k + 1)).head? = (chunkLines a d 0).head? := by
  induction k with
  | zero => simp [linesUpTo]
  | succ k ih =>
    rw [linesUpTo, List.head?_append, ih]
    simp [chunkLines, List.head?_append]

theorem encodeLines_head? (a : Addr) {d : List Byte} (hn : 0 < d.length) :
    (encodeLines a d).head? = (elaLines a 0 ++ [dataLine a d 0]).head? := by
  rw [encodeLines, List.head?_append, ← Nat.sub_add_cancel (chunkCount_pos hn), linesUpTo_succ_head?, chunkLines]
  simp [List.head?_append]

theorem chunkBank_zero (a : Addr) : chunkBank a 0 = splitUpper a := by
  simp [chunkBank, chunkAddr]

/-- Iteration 0 has an ELA line exactly if the block starts beyond bank 0 (R173). -/
theorem chunkBank_zero_eq_bankBefore_iff (a : Addr) : chunkBank a 0 = bankBefore a 0 ↔ a.toNat < 0x10000 := by
  rw [chunkBank_zero, bankBefore, ← BitVec.toNat_inj, splitUpper_toNat, BitVec.toNat_ofNat]
  omega

/-- Settles O52: the first line is iteration 0's, whose bank is compared with 0, and no ELA line is for bank 0. -/
theorem firstLineDependsOnBank : Obligations.FirstLineDependsOnBank := by
  intro a d hr hd
  have hn : 0 < d.length := List.length_pos_iff.2 hd
  refine ⟨fun ha => ?_, fun ha => ?_, fun hmem => ?_⟩
  · have hne : chunkBank a 0 ≠ bankBefore a 0 := fun heq => absurd ((chunkBank_zero_eq_bankBefore_iff a).1 heq) (Nat.not_lt.2 ha)
    rw [encodeLines_head? a hn, elaLines_of_ne hne, chunkBank_zero]
    rfl
  · rw [encodeLines_head? a hn, elaLines_of_eq ((chunkBank_zero_eq_bankBefore_iff a).2 ha)]
    rfl
  · exact absurd (toNat_of_elaLine_mem hr hn hmem).1 (by decide)

theorem dataLine_mem_linesUpTo {a : Addr} {d : List Byte} {j k : Nat} (h : j < k) : dataLine a d j ∈ linesUpTo a d k := by
  induction k with
  | zero => omega
  | succ k ih =>
    rw [linesUpTo, chunkLines, List.mem_append, List.mem_append, List.mem_singleton]
    rcases Nat.lt_succ_iff_lt_or_eq.1 h with hlt | rfl
    · exact .inl (ih hlt)
    · exact .inr (.inr rfl)

/-- A chunk that has a successor is full (R202). -/
theorem chunkLen_of_succ_lt {n k : Nat} (h : k + 1 < chunkCount n) : chunkLen n k = 32 := by
  rw [lt_chunkCount] at h
  unfold chunkLen
  omega

/-- A chunk that reaches the end of its bank is followed by one that starts in the next bank. -/
theorem chunk_succ_of_crossing {a : Addr} {k : Nat} (h : chunkAddr a (k + 1) < 2 ^ 32) (hx : 65536 ≤ (chunkLower a k).toNat + 32) :
    (chunkBank a (k + 1)).toNat = (chunkBank a k).toNat + 1 ∧
      (chunkLower a (k + 1)).toNat = (chunkLower a k).toNat + 32 - 65536 := by
  have hsucc : chunkAddr a (k + 1) = chunkAddr a k + 32 := by unfold chunkAddr; omega
  have hk : chunkAddr a k < 2 ^ 32 := by omega
  rw [chunkLower_toNat hk] at hx ⊢
  rw [chunkBank_toNat h, chunkBank_toNat hk, chunkLower_toNat h]
  omega

/-- Settles O53: the next chunk is 32 addresses on, and no ELA line is for a bank beyond the last chunk start's. -/
theorem crossingChunkIsOneRecord : Obligations.CrossingChunkIsOneRecord := by
  intro a d k hr hk hx
  refine ⟨List.mem_append_left _ (dataLine_mem_linesUpTo hk), fun hnext => ?_, fun hlast hmem => ?_⟩
  · rw [chunkLen_of_succ_lt hnext] at hx
    obtain ⟨hbank, hlower⟩ := chunk_succ_of_crossing (chunkAddr_lt hr hnext) hx
    have hne : chunkBank a (k + 1) ≠ bankBefore a (k + 1) := fun heq => by
      rw [heq, bankBefore] at hbank
      omega
    refine ⟨hbank, hlower, ?_⟩
    rw [chunkLines, elaLines_of_ne hne]
    rfl
  · have hn : 0 < d.length := Nat.zero_lt_of_lt (lt_chunkCount.1 hk)
    have hbound := toNat_of_elaLine_mem hr hn hmem
    rw [← hlast, Nat.add_sub_cancel, BitVec.toNat_add] at hbound
    have hlt := (chunkBank a k).isLt
    rw [BitVec.toNat_ofNat] at hbound
    omega

end Sys2Proof.Block

namespace Sys2Proof.Machine

/-! ### An ENCODE pass, whole (R160, R169 to R172, R274) -/

/-- A running ENCODE pass of `a` and `d`, with OFFSET, BANK and OUT as given and the host's moves `rest` still to come. -/
structure State.InEncode (s : State) (a : Addr) (d : List Byte) (rest : List HostMove) (off : Nat) (b : Half) (ls : List Line) :
    Prop where
  phase : s.phase = .run
  op : s.op = .encode
  start : s.start = a
  data : s.data = d
  host : s.host = rest
  offset : s.offset = off
  bank : s.bank = b
  out : s.out = ls

section
variable {s : State} {a : Addr} {d : List Byte} {rest : List HostMove} {k : Nat} {b : Half} {ls : List Line}

/-- The ELA step of iteration k. -/
theorem State.InEncode.step_ela (h : s.InEncode a d rest (32 * k) b ls) (hr : a.toNat + d.length ≤ 2 ^ 32)
    (hk : k < Block.chunkCount d.length) (hb : Block.chunkBank a k ≠ b) :
    ∃ t, step s = .next t ∧
      t.InEncode a d rest (32 * k) (Block.chunkBank a k) (ls ++ [elaLine (Block.chunkBank a k)]) := by
  obtain ⟨hp, ho, rfl, rfl, rfl, hoff, rfl, rfl⟩ := h
  have hupper := State.upper_eq_chunkBank hoff
  rw [Block.lt_chunkCount] at hk
  refine ⟨s.elaStepped, step_run_ela hp ho (by omega) (by omega) (hupper ▸ hb), ?_⟩
  constructor <;> simp [hp, ho, hoff, hupper]

/-- The Data step of iteration k, with the bank in force. -/
theorem State.InEncode.step_data (h : s.InEncode a d rest (32 * k) (Block.chunkBank a k) ls) (hr : a.toNat + d.length ≤ 2 ^ 32)
    (hk : k < Block.chunkCount d.length) :
    ∃ t, step s = .next t ∧
      t.InEncode a d rest (min (32 * (k + 1)) d.length) (Block.chunkBank a k) (ls ++ [Block.dataLine a d k]) := by
  obtain ⟨hp, ho, rfl, rfl, rfl, hoff, hbank, rfl⟩ := h
  rw [Block.lt_chunkCount] at hk
  have hnext : s.offset + s.chunk = min (32 * (k + 1)) s.data.length := by
    rw [State.chunk_eq]
    omega
  refine ⟨s.dataStepped, step_run_data hp ho (by omega) (by omega) (hbank ▸ State.upper_eq_chunkBank hoff), ?_⟩
  constructor <;> simp [hp, ho, hbank, hnext, State.formatLine_chunk_eq_dataLine hoff]

/-- Iteration k takes one step for each of its lines. -/
theorem State.InEncode.runFor_chunkLines
    (h : s.InEncode a d rest (min (32 * k) d.length) (Block.bankBefore a k) (Block.linesUpTo a d k))
    (hr : a.toNat + d.length ≤ 2 ^ 32) (hk : k < Block.chunkCount d.length) :
    ∃ t, runFor (Block.chunkLines a d k).length s = .next t ∧
      t.InEncode a d rest (min (32 * (k + 1)) d.length) (Block.bankBefore a (k + 1)) (Block.linesUpTo a d (k + 1)) := by
  have hoff : min (32 * k) d.length = 32 * k := Nat.min_eq_left (Block.lt_chunkCount.1 hk).le
  rw [hoff] at h
  rw [Block.linesUpTo, Block.chunkLines]
  by_cases hb : Block.chunkBank a k = Block.bankBefore a k
  · rw [← hb] at h
    obtain ⟨t, hstep, ht⟩ := h.step_data hr hk
    rw [Block.elaLines_of_eq hb]
    exact ⟨t, runFor_one_of_step hstep, ht⟩
  · obtain ⟨u, hela, hu⟩ := h.step_ela hr hk hb
    obtain ⟨t, hdata, ht⟩ := hu.step_data hr hk
    rw [Block.elaLines_of_ne hb, ← List.append_assoc]
    exact ⟨t, (runFor_succ_of_step hela 1).trans (runFor_one_of_step hdata), ht⟩

/-- The first k iterations take one step for each of their lines. -/
theorem State.InEncode.runFor_linesUpTo (h : s.InEncode a d rest 0 0#16 []) (hr : a.toNat + d.length ≤ 2 ^ 32)
    (hk : k ≤ Block.chunkCount d.length) :
    ∃ t, runFor (Block.linesUpTo a d k).length s = .next t ∧
      t.InEncode a d rest (min (32 * k) d.length) (Block.bankBefore a k) (Block.linesUpTo a d k) := by
  induction k with
  | zero => exact ⟨s, rfl, by rwa [Nat.mul_zero, Nat.zero_min]⟩
  | succ k ih =>
    obtain ⟨u, hrun, hu⟩ := ih (by omega)
    obtain ⟨t, hrun', ht⟩ := hu.runFor_chunkLines hr hk
    refine ⟨t, ?_, ht⟩
    rw [Block.linesUpTo, List.length_append, runFor_add hrun, hrun']

end

theorem State.inEncode_encodeStarted (s : State) (c : Cmd) (rest : List HostMove) :
    (s.encodeStarted c rest).InEncode c.startAddress c.din rest 0 0#16 [] :=
  ⟨rfl, rfl, rfl, rfl, rfl, rfl, rfl, rfl⟩

/-- Settles O23: the start step, a step for each line of the K iterations, and the EOF step. -/
theorem encodePassComputesClosedForm : Obligations.EncodePassComputesClosedForm := by
  intro s c rest hp hc hh hr
  obtain ⟨t, hrun, ht⟩ := (s.inEncode_encodeStarted c rest).runFor_linesUpTo hr le_rfl
  obtain ⟨hpt, hot, hstart, hdata, hhost, hoff, hbank, hout⟩ := ht
  have hend : min (32 * Block.chunkCount c.din.length) c.din.length = c.din.length := by
    unfold Block.chunkCount
    omega
  rw [hend] at hoff
  have heof : step t = .next t.eofStepped := step_run_eof hpt hot (by rw [hdata, hoff])
  have hsteps : Block.stepCount c.startAddress c.din.length
      = (Block.linesUpTo c.startAddress c.din (Block.chunkCount c.din.length)).length + 1 + 1 := by
    rw [Block.linesUpTo_chunkCount_length hr, Block.stepCount]
    omega
  refine ⟨t.eofStepped, ?_, rfl, hot, ?_, hstart, hdata, hoff, hbank, hhost⟩
  · rw [hsteps, runFor_succ_of_step (step_encode hp hc hh hr)]
    exact (runFor_add hrun 1).trans (runFor_one_of_step heof)
  · rw [State.eofStepped_out, hout, Block.encodeLines]

/-- Settles O24: the pass of empty data has no chunk, so its start step and EOF step are all. -/
theorem emptyDataGivesEofLineAlone : Obligations.EmptyDataGivesEofLineAlone := by
  intro s c rest hp hc hh hd
  have hr : c.startAddress.toNat + c.din.length ≤ 2 ^ 32 := by
    rw [hd]
    exact c.startAddress.isLt.le
  obtain ⟨t, hrun, hpt, -, hout, -⟩ := encodePassComputesClosedForm s c rest hp hc hh hr
  rw [hd] at hrun hout
  exact ⟨t, hrun, hpt, hout⟩

end Sys2Proof.Machine

/-! The properties of results (spec/43_properties.md): what each step of a pass adds to OUT, the form of the lines of an ENCODE
result, where its ELA lines stand, and what can be read back from it. -/

namespace Sys2Proof.Machine

/-! ### Output only grows (R210) -/

/-- Settles O28: each of the five steps of `step_run_cases` appends its line, and only the Data step moves OFFSET, forward by CHUNK. -/
theorem runningStepAppendsOneLine : Obligations.RunningStepAppendsOneLine := by
  intro s t hp h
  rcases step_run_cases hp h with ⟨-, -, -, -, rfl⟩ | ⟨-, -, -, -, rfl⟩ | ⟨-, -, rfl⟩ | ⟨-, rfl⟩ | ⟨-, rfl⟩
  · exact ⟨⟨_, s.dataStepped_out⟩, by simp⟩
  · exact ⟨⟨_, s.elaStepped_out⟩, by simp⟩
  · exact ⟨⟨_, s.eofStepped_out⟩, by simp⟩
  · exact ⟨⟨_, State.emitFormat_finish_out ..⟩, by simp⟩
  · exact ⟨⟨_, s.emitEla_out s.eUpper⟩, by simp⟩

end Sys2Proof.Machine

namespace Sys2Proof

/-! ### What FORMAT's lines have in common (R80, R84, R116) -/

@[simp] theorem parseLine_formatLine (bc : Byte) (addr : Half) (rt : Byte) (pay : List Byte) :
    parseLine (formatLine bc addr rt pay) = .ok { bc := bc, addr := addr, rt := rt, pay := pay, chk := checksum bc addr rt pay } :=
  parseLine_recordLine ..

theorem byteSum_concat (bs : List Byte) (c : Byte) : byteSum (bs ++ [c]) = byteSum bs + c.toNat := by
  induction bs with
  | nil => simp [byteSum]
  | cons b bs ih => simp only [List.cons_append, byteSum, ih, Nat.add_assoc]

/-- The zero-sum law on the bytes in the order a line renders them. -/
theorem byteSum_record_mod (bc : Byte) (addr : Half) (rt : Byte) (pay : List Byte) :
    byteSum (bc :: high8 addr :: low8 addr :: rt :: (pay ++ [checksum bc addr rt pay])) % 256 = 0 := by
  have hzero := (zeroSumLaw bc addr rt pay _).2 rfl
  simpa only [byteSum, byteSum_concat, Nat.add_assoc] using hzero

theorem isHexCode_hexDigit (n : Nibble) : Block.isHexCode (hexDigit n).ascii = true := by
  revert n
  decide

theorem isHexCode_of_mem_hexBytes {bs : List Byte} {b : Byte} (h : b ∈ lineAscii (hexBytes bs)) : Block.isHexCode b = true := by
  induction bs with
  | nil => cases h
  | cons x xs ih =>
    simp only [lineAscii, hexBytes, hex2, List.cons_append, List.nil_append, List.map_cons, List.mem_cons] at h
    rcases h with rfl | rfl | h
    · exact isHexCode_hexDigit _
    · exact isHexCode_hexDigit _
    · exact ih h

/-- On the wire a line of FORMAT is the code of `:` and then codes of digits. -/
theorem lineAscii_formatLine (bc : Byte) (addr : Half) (rt : Byte) (pay : List Byte) :
    ∃ digits, lineAscii (formatLine bc addr rt pay) = 0x3A#8 :: digits ∧ ∀ b ∈ digits, Block.isHexCode b = true := by
  rw [formatLine, recordLine_eq]
  exact ⟨_, rfl, fun _ => isHexCode_of_mem_hexBytes⟩

end Sys2Proof

namespace Sys2Proof.Block

/-! ### The lines of an ENCODE result, each by itself (R201, R202, R203, R208) -/

/-- Every line of an ENCODE result is the Data line of a chunk, an ELA line, or the EOF line (R170). -/
theorem mem_encodeLines {a : Addr} {d : List Byte} {l : Line} (h : l ∈ encodeLines a d) :
    (∃ k, k < chunkCount d.length ∧ l = dataLine a d k) ∨ (∃ u, l = elaLine u) ∨ l = eofLine := by
  rw [encodeLines, List.mem_append, List.mem_singleton] at h
  rcases h with h | rfl
  · obtain ⟨k, hk, rfl | ⟨rfl, -⟩⟩ := mem_linesUpTo h
    · exact .inl ⟨k, hk, rfl⟩
    · exact .inr (.inl ⟨_, rfl⟩)
  · exact .inr (.inr rfl)

/-- Every line of an ENCODE result is a line of FORMAT with a payload of `LL` bytes: the engine keeps the premise of R119. -/
theorem eq_formatLine_of_mem_encodeLines {a : Addr} {d : List Byte} {l : Line} (h : l ∈ encodeLines a d) :
    ∃ bc addr rt pay, l = formatLine bc addr rt pay ∧ LengthsAgree bc pay := by
  rcases mem_encodeLines h with ⟨k, -, rfl⟩ | ⟨u, rfl⟩ | rfl
  · exact ⟨_, _, _, _, rfl, by rw [LengthsAgree, chunkBytes_length, chunkLen_toNat]⟩
  · exact ⟨_, _, _, _, rfl, rfl⟩
  · exact ⟨_, _, _, _, eofLine_eq, rfl⟩

/-- Settles O44: the lines are lines of FORMAT, which the zero-sum law is about. -/
theorem everyEncodeLineSumsToZero : Obligations.EveryEncodeLineSumsToZero := by
  intro a d _ l hl
  obtain ⟨bc, addr, rt, pay, rfl, -⟩ := eq_formatLine_of_mem_encodeLines hl
  exact ⟨_, lineBytes?_formatLine bc addr rt pay, byteSum_record_mod bc addr rt pay⟩

/-- Settles O51: the lines are lines of FORMAT whose payload has `LL` bytes. -/
theorem everyEncodeLineIsWellFormedText : Obligations.EveryEncodeLineIsWellFormedText := by
  intro a d _ l hl
  obtain ⟨bc, addr, rt, pay, rfl, hlen⟩ := eq_formatLine_of_mem_encodeLines hl
  obtain ⟨digits, hcodes, hdigits⟩ := lineAscii_formatLine bc addr rt pay
  exact ⟨digits, _, hcodes, hdigits, parseLine_formatLine bc addr rt pay, by rw [formatLine_length, hlen], hlen⟩

/-- The payloads of the first k Data lines are the first k chunks. -/
theorem dataPayloads_linesUpTo (a : Addr) (d : List Byte) (k : Nat) :
    dataPayloads (linesUpTo a d k) = (List.range k).map (chunkBytes d) := by
  induction k with
  | zero => rfl
  | succ k ih => simp [linesUpTo, chunkLines, ih, List.range_succ]

theorem dataPayloads_encodeLines (a : Addr) (d : List Byte) :
    dataPayloads (encodeLines a d) = (List.range (chunkCount d.length)).map (chunkBytes d) := by
  rw [← dataPayloads_linesUpTo a d]
  simp [encodeLines, dataPayloads]

/-- A chunk that is begun has at least one byte, and no chunk has more than 32 (R162). -/
theorem chunkLen_bounds {n k : Nat} (h : k < chunkCount n) : 1 ≤ chunkLen n k ∧ chunkLen n k ≤ 32 := by
  rw [lt_chunkCount] at h
  unfold chunkLen
  omega

/-- Settles O45: a line of type 00 is the Data line of a chunk, and a chunk that has a successor is full. -/
theorem dataPayloadBound : Obligations.DataPayloadBound := by
  refine fun a d _ => ⟨fun l hl r hr hrt => ?_, fun k p hp hk => ?_⟩
  · rcases mem_encodeLines hl with ⟨k, hk, rfl⟩ | ⟨u, rfl⟩ | rfl
    · rw [dataLine, parseLine_formatLine] at hr
      cases hr
      simpa only [chunkBytes_length, chunkLen_toNat, and_true] using chunkLen_bounds hk
    · rw [elaLine, parseLine_formatLine] at hr
      cases hr
      exact absurd (show 4#8 = 0#8 from hrt) (by decide)
    · rw [eofLine_eq, parseLine_formatLine] at hr
      cases hr
      exact absurd hrt (by decide)
  · rw [dataPayloads_encodeLines, List.length_map, List.length_range] at hk
    rw [dataPayloads_encodeLines, List.getElem?_map, List.getElem?_range (by omega)] at hp
    cases hp
    rw [chunkBytes_length, chunkLen_of_succ_lt hk]

/-- Settles O46: the EOF line is appended to the lines of the iterations, which are Data lines and ELA lines. -/
theorem eofLineLastAndOnlyThere : Obligations.EofLineLastAndOnlyThere := by
  refine fun a d _ => ⟨List.getLast?_concat, fun l hl => ?_⟩
  rw [encodeLines, List.dropLast_concat] at hl
  obtain ⟨k, -, rfl | ⟨rfl, -⟩⟩ := mem_linesUpTo hl
  · exact ⟨_, parseLine_formatLine .., .inl rfl⟩
  · exact ⟨_, parseLine_formatLine .., .inr rfl⟩

/-! ### The ELA lines (R204, R205) -/

/-- Settles O48: the banks are those of `elaBanks_encodeLines_map_toNat`, and the last one is in force after the last iteration. -/
theorem elaBanksAscendByOne : Obligations.ElaBanksAscendByOne := by
  intro a d hr
  refine ⟨elaBanks_encodeLines_map_toNat hr, fun hne => ?_⟩
  have hlast := elaBanks_linesUpTo_getLastD a d (chunkCount d.length)
  rw [elaBanks_encodeLines] at hne ⊢
  generalize chunkCount d.length = K at hne hlast ⊢
  cases K with
  | zero => exact absurd rfl hne
  | succ K =>
    rw [List.getLastD_eq_getLast?, List.getLast?_eq_some_getLast hne, Option.getD_some, bankBefore] at hlast
    rw [List.getLast?_eq_some_getLast hne, hlast, Nat.add_sub_cancel]

theorem nodup_elaBanks_encodeLines {a : Addr} {d : List Byte} (hr : a.toNat + d.length ≤ 2 ^ 32) :
    (elaBanks (encodeLines a d)).Nodup :=
  List.Nodup.of_map BitVec.toNat (elaBanks_encodeLines_map_toNat hr ▸ List.nodup_range')

theorem zero_notMem_elaBanks_encodeLines {a : Addr} {d : List Byte} (hr : a.toNat + d.length ≤ 2 ^ 32) :
    0#16 ∉ elaBanks (encodeLines a d) := by
  intro h
  have hrange := elaBanks_encodeLines_map_toNat hr ▸ List.mem_map_of_mem (f := BitVec.toNat) h
  rw [List.mem_range'_1, BitVec.toNat_ofNat] at hrange
  omega

/-- A bank other than 0 in which a chunk starts is among the consecutive banks of the ELA lines. -/
theorem chunkBank_mem_elaBanks_encodeLines {a : Addr} {d : List Byte} {k : Nat} (hr : a.toNat + d.length ≤ 2 ^ 32)
    (hk : k < chunkCount d.length) (hb : chunkBank a k ≠ 0#16) : chunkBank a k ∈ elaBanks (encodeLines a d) := by
  have hn : 0 < d.length := Nat.zero_lt_of_lt (lt_chunkCount.1 hk)
  have hpos : (chunkBank a k).toNat ≠ 0 := fun h => hb (BitVec.eq_of_toNat_eq h)
  have hfirst := chunkBank_le (Nat.zero_le k) (chunkAddr_lt hr hk)
  have hlast := chunkBank_le (Nat.le_sub_one_of_lt hk) (chunkAddr_lt hr (Nat.sub_one_lt (chunkCount_pos hn).ne'))
  have hrange : (chunkBank a k).toNat ∈ (elaBanks (encodeLines a d)).map BitVec.toNat := by
    rw [elaBanks_encodeLines_map_toNat hr, elaCount_of_pos hr hn, List.mem_range'_1]
    omega
  obtain ⟨b, hmem, heq⟩ := List.mem_map.1 hrange
  exact BitVec.eq_of_toNat_eq heq ▸ hmem

/-- An iteration's ELA line, when it has one, is its first line. -/
theorem chunkLines_getElem?_ela {a : Addr} {d : List Byte} {k n : Nat} {l : Line} {b : Half} (h : (chunkLines a d k)[n]? = some l)
    (hl : elaBank? l = some b) : n = 0 ∧ chunkBank a k = b ∧ chunkBank a k ≠ bankBefore a k := by
  have hdata : l ≠ dataLine a d k := by
    rintro rfl
    simp at hl
  by_cases hb : chunkBank a k = bankBefore a k
  · rw [chunkLines, elaLines_of_eq hb] at h
    exact absurd (List.mem_singleton.1 (List.mem_of_getElem? h)) hdata
  · rw [chunkLines, elaLines_of_ne hb] at h
    match n with
    | 0 =>
      cases h
      rw [elaBank?_elaLine] at hl
      exact ⟨rfl, Option.some.inj hl, hb⟩
    | 1 => exact absurd (Option.some.inj h).symm hdata
    | n + 2 => cases h

/-- The ELA lines of the iterations stand where an iteration that needs one begins. -/
theorem linesUpTo_getElem?_ela {a : Addr} {d : List Byte} {k n : Nat} {l : Line} {b : Half} (h : (linesUpTo a d k)[n]? = some l)
    (hl : elaBank? l = some b) :
    ∃ j, j < k ∧ n = (linesUpTo a d j).length ∧ chunkBank a j = b ∧ chunkBank a j ≠ bankBefore a j := by
  induction k with
  | zero => cases h
  | succ k ih =>
    rw [linesUpTo, List.getElem?_append] at h
    split at h
    · obtain ⟨j, hj, hrest⟩ := ih h
      exact ⟨j, Nat.lt_succ_of_lt hj, hrest⟩
    · obtain ⟨hn, hbank⟩ := chunkLines_getElem?_ela h hl
      exact ⟨k, Nat.lt_succ_self k, by omega, hbank⟩

theorem encodeLines_getElem?_ela {a : Addr} {d : List Byte} {n : Nat} {l : Line} {b : Half} (h : (encodeLines a d)[n]? = some l)
    (hl : elaBank? l = some b) :
    ∃ k, k < chunkCount d.length ∧ n = (linesUpTo a d k).length ∧ chunkBank a k = b ∧ chunkBank a k ≠ bankBefore a k := by
  rw [encodeLines, List.getElem?_append] at h
  split at h
  · exact linesUpTo_getElem?_ela h hl
  · obtain rfl := List.mem_singleton.1 (List.mem_of_getElem? h)
    simp at hl

theorem linesUpTo_eq_append {a : Addr} {d : List Byte} {j k : Nat} (h : j ≤ k) :
    ∃ rest, linesUpTo a d k = linesUpTo a d j ++ rest := by
  induction h with
  | refl => exact ⟨[], (List.append_nil _).symm⟩
  | step _ ih =>
    obtain ⟨rest, hrest⟩ := ih
    exact ⟨rest ++ chunkLines a d _, by rw [linesUpTo, hrest, List.append_assoc]⟩

/-- The lines of iteration k follow those of the iterations before it. -/
theorem encodeLines_eq_append {a : Addr} {d : List Byte} {k : Nat} (hk : k < chunkCount d.length) :
    ∃ rest, encodeLines a d = linesUpTo a d k ++ (chunkLines a d k ++ rest) := by
  obtain ⟨rest, hrest⟩ := linesUpTo_eq_append (a := a) (d := d) hk
  exact ⟨rest ++ [eofLine], by rw [encodeLines, hrest, linesUpTo, List.append_assoc, List.append_assoc]⟩

/-- Where the bank changes, no earlier chunk starts in the new one. -/
theorem chunkBank_ne_of_lt {a : Addr} {j k : Nat} (h : chunkAddr a k < 2 ^ 32) (hb : chunkBank a k ≠ bankBefore a k) (hj : j < k) :
    chunkBank a j ≠ chunkBank a k := by
  cases k with
  | zero => exact absurd hj (Nat.not_lt_zero j)
  | succ k =>
    have hk : chunkAddr a k < 2 ^ 32 := by unfold chunkAddr at h ⊢; omega
    have hle := chunkBank_le (Nat.le_of_lt_succ hj) hk
    intro heq
    rcases chunkBank_succ h with hsame | hsucc
    · exact hb hsame
    · rw [heq] at hle
      omega

/-- Settles O47: the banks are distinct and not 0, and an ELA line begins the iteration of the first chunk that starts in its bank. -/
theorem elaPlacement : Obligations.ElaPlacement := by
  intro a d hr
  refine ⟨fun k hk hb => ?_, zero_notMem_elaBanks_encodeLines hr, fun b hb => ?_, fun n l b hn hl => ?_⟩
  · exact List.count_eq_one_of_mem (nodup_elaBanks_encodeLines hr) (chunkBank_mem_elaBanks_encodeLines hr hk hb)
  · obtain ⟨l, hmem, hl⟩ := List.mem_filterMap.1 hb
    obtain ⟨n, hn⟩ := List.mem_iff_getElem?.1 hmem
    obtain ⟨k, hk, -, hbank, -⟩ := encodeLines_getElem?_ela hn hl
    exact ⟨k, hk, hbank⟩
  · obtain ⟨k, hk, rfl, rfl, hne⟩ := encodeLines_getElem?_ela hn hl
    obtain ⟨rest, hsplit⟩ := encodeLines_eq_append (a := a) hk
    refine ⟨k, hk, rfl, fun j => chunkBank_ne_of_lt (chunkAddr_lt hr hk) hne, ?_, ?_⟩
    · rw [hsplit, chunkLines, elaLines_of_ne hne, List.getElem?_append_right (Nat.le_add_right _ 1), Nat.add_sub_cancel_left]
      rfl
    · rw [hsplit, List.take_left, dataPayloads_linesUpTo_length]

/-! ### What can be read back (R206, R207) -/

/-- A chunk's start is its bank and its lower address together (R140). -/
theorem chunkBank_mul_add_chunkLower {a : Addr} {k : Nat} (h : chunkAddr a k < 2 ^ 32) :
    (chunkBank a k).toNat * 65536 + (chunkLower a k).toNat = chunkAddr a k := by
  rw [chunkBank_toNat h, chunkLower_toNat h, Nat.div_add_mod']

/-- The K chunks take the whole of the data. -/
theorem take_chunkCount (d : List Byte) : d.take (32 * chunkCount d.length) = d :=
  List.take_of_length_le (by unfold chunkCount; omega)

theorem dataAddrs_elaLine (b u : Half) (ls : List Line) : dataAddrs b (elaLine u :: ls) = dataAddrs u ls := by
  simp only [dataAddrs, decodeLine_elaLine]

theorem dataAddrs_dataLine {a : Addr} {d : List Byte} {k : Nat} (h : chunkAddr a k < 2 ^ 32) (ls : List Line) :
    dataAddrs (chunkBank a k) (dataLine a d k :: ls) = chunkAddr a k :: dataAddrs (chunkBank a k) ls := by
  simp only [dataAddrs, decodeLine_dataLine, chunkBank_mul_add_chunkLower h]

/-- Iteration k starts with the bank before it in force and gives one address. -/
theorem dataAddrs_chunkLines {a : Addr} {d : List Byte} {k : Nat} (h : chunkAddr a k < 2 ^ 32) (ls : List Line) :
    dataAddrs (bankBefore a k) (chunkLines a d k ++ ls) = chunkAddr a k :: dataAddrs (chunkBank a k) ls := by
  rw [chunkLines]
  by_cases hb : chunkBank a k = bankBefore a k
  · rw [elaLines_of_eq hb, ← hb]
    exact dataAddrs_dataLine h ls
  · rw [elaLines_of_ne hb]
    exact (dataAddrs_elaLine ..).trans (dataAddrs_dataLine h ls)

theorem dataAddrs_linesUpTo {a : Addr} {d : List Byte} {k : Nat} (hr : a.toNat + d.length ≤ 2 ^ 32) (hk : k ≤ chunkCount d.length)
    (ls : List Line) :
    dataAddrs 0#16 (linesUpTo a d k ++ ls) = (List.range k).map (chunkAddr a) ++ dataAddrs (bankBefore a k) ls := by
  induction k generalizing ls with
  | zero => rfl
  | succ k ih =>
    rw [linesUpTo, List.append_assoc, ih (Nat.le_of_succ_le hk), dataAddrs_chunkLines (chunkAddr_lt hr hk), bankBefore]
    simp [List.range_succ]

/-- Settles O49: the chunks are the data cut up, and every Data line stands under the bank its chunk starts in. -/
theorem outputReconstructsTheBlock : Obligations.OutputReconstructsTheBlock := by
  refine fun a d hr => ⟨?_, ?_⟩
  · rw [dataPayloads_encodeLines, ← dataPayloads_linesUpTo a, dataPayloads_linesUpTo_flatten, take_chunkCount]
  · rw [encodeLines, dataAddrs_linesUpTo hr le_rfl, dataAddrs, decodeLine_eofLine]
    simp [dataAddrs, chunkAddr]

end Sys2Proof.Block

namespace Sys2Proof.Reader

theorem imageWriteBytes_append (m : Image) (x : Nat) (bs cs : List Byte) :
    imageWriteBytes m x (bs ++ cs) = imageWriteBytes (imageWriteBytes m x bs) (x + bs.length) cs := by
  induction bs generalizing m x with
  | nil => rfl
  | cons b bs ih => rw [List.cons_append, imageWriteBytes, imageWriteBytes, ih, List.length_cons, Nat.add_right_comm, Nat.add_assoc]

theorem readLines_elaLine (b u : Half) (m : Image) (ls : List Line) : readLines b m (elaLine u :: ls) = readLines u m ls := by
  simp [readLines, elaLine, Config.tEla]

theorem readLines_eofLine (b : Half) (m : Image) (ls : List Line) : readLines b m (eofLine :: ls) = some m := by
  simp [readLines, eofLine_eq, Config.tEla, Config.tData, Config.tEof]

theorem readLines_dataLine {a : Addr} {d : List Byte} {k : Nat} (h : Block.chunkAddr a k < 2 ^ 32) (m : Image) (ls : List Line) :
    readLines (Block.chunkBank a k) m (Block.dataLine a d k :: ls)
      = readLines (Block.chunkBank a k) (imageWriteBytes m (Block.chunkAddr a k) (Block.chunkBytes d k)) ls := by
  simp only [readLines, Block.dataLine, parseLine_formatLine, Block.chunkBytes_length, Block.chunkLen_toNat,
    Block.chunkBank_mul_add_chunkLower h]
  rfl

/-- Iteration k starts with the bank before it in force and places its chunk at the chunk's address. -/
theorem readLines_chunkLines {a : Addr} {d : List Byte} {k : Nat} (h : Block.chunkAddr a k < 2 ^ 32) (m : Image) (ls : List Line) :
    readLines (Block.bankBefore a k) m (Block.chunkLines a d k ++ ls)
      = readLines (Block.chunkBank a k) (imageWriteBytes m (Block.chunkAddr a k) (Block.chunkBytes d k)) ls := by
  rw [Block.chunkLines]
  by_cases hb : Block.chunkBank a k = Block.bankBefore a k
  · rw [Block.elaLines_of_eq hb, ← hb]
    exact readLines_dataLine h m ls
  · rw [Block.elaLines_of_ne hb]
    exact (readLines_elaLine ..).trans (readLines_dataLine h m ls)

/-- After k iterations the reader has placed the first 32k bytes of the data. -/
theorem readLines_linesUpTo {a : Addr} {d : List Byte} {k : Nat} (hr : a.toNat + d.length ≤ 2 ^ 32)
    (hk : k ≤ Block.chunkCount d.length) (ls : List Line) :
    readLines 0#16 [] (Block.linesUpTo a d k ++ ls)
      = readLines (Block.bankBefore a k) (imageWriteBytes [] a.toNat (d.take (32 * k))) ls := by
  induction k generalizing ls with
  | zero => rfl
  | succ k ih =>
    have hfull : (d.take (32 * k)).length = 32 * k := List.length_take_of_le (Block.lt_chunkCount.1 hk).le
    rw [Block.linesUpTo, List.append_assoc, ih (Nat.le_of_succ_le hk), readLines_chunkLines (Block.chunkAddr_lt hr hk),
      Nat.mul_succ, List.take_add, ← Block.chunkBytes_eq_take_drop, imageWriteBytes_append, hfull]
    rfl

/-- The reader of an ENCODE result places the data from the start address on. -/
theorem readAll_encodeLines {a : Addr} {d : List Byte} (hr : a.toNat + d.length ≤ 2 ^ 32) :
    readAll (Block.encodeLines a d) = some (imageWriteBytes [] a.toNat d) := by
  rw [readAll, Block.encodeLines, readLines_linesUpTo hr le_rfl, readLines_eofLine, Block.take_chunkCount]

/-- Settles O50: the image is the data written from the start address on into the empty image. -/
theorem readerRecoversTheBlock : Obligations.ReaderRecoversTheBlock := by
  refine fun a d hr => ⟨_, readAll_encodeLines hr, imageWf_imageWriteBytes rfl, fun x => ?_⟩
  rw [imageRead_imageWriteBytes rfl]
  by_cases hx : a.toNat ≤ x
  · by_cases hend : x < a.toNat + d.length
    · rw [if_pos ⟨hx, hend⟩, if_pos hx]
    · rw [if_neg fun h => hend h.2, if_pos hx, List.getElem?_eq_none (by omega)]
      rfl
  · rw [if_neg fun h => hx h.1, if_neg hx]
    rfl

end Sys2Proof.Reader

namespace Sys2Proof.Machine

/-! ### What is refused (R104, R178, R230, R233, R248) -/

/-- A running ENCODE pass that meets the invariant keeps its range (R178). -/
theorem State.rangeOk_of_inv {s : State} (hinv : s.Inv) (hp : s.phase = .run) (ho : s.op = .encode) : s.rangeOk :=
  ((State.inv_run_encode hp ho).1 hinv).1

/-- Settles O32: the invariant keeps the range of an ENCODE pass, where a record is due and its meaning answers a next state. -/
theorem runningPassIsNeverStuck : Obligations.RunningPassIsNeverStuck := by
  intro s hinv hp
  obtain ⟨i, t, hd, ht⟩ := exists_due_next hp (State.rangeOk_of_inv hinv hp)
  exact ⟨t, (step_of_due s i hp hd).trans ht⟩

/-- Of the commands the host presents between passes, select 11 (V5) and an ENCODE launch beyond the address space (V2) are refused, and
no other. -/
theorem refusal_of_step_present {s : State} {r : Refusal} {c : Cmd} {rest : List HostMove} (hp : s.phase ≠ .run)
    (hh : s.host = .present c :: rest) (h : step s = .refused r) :
    c.select = 3#2 ∧ r = .reservedSelect ∨
      c.select = 0#2 ∧ 2 ^ 32 < c.startAddress.toNat + c.din.length ∧ r = .addressRange := by
  rcases select_cases c with hc | hc | hc | hc
  · rcases Nat.lt_or_ge (2 ^ 32) (c.startAddress.toNat + c.din.length) with hr | hr
    · rw [step_of_present s c rest hp hh, decodeCmd_of_select_encode hc,
        exec_encode_beyond (s := s.withHost rest) hp hr] at h
      exact .inr ⟨hc, hr, (Host.Outcome.refused.inj h).symm⟩
    · rw [step_encode hp hc hh hr] at h
      cases h
  · rw [step_format hp hc hh] at h
    cases h
  · rw [step_emitEla hp hc hh] at h
    cases h
  · rw [step_of_present s c rest hp hh, decodeCmd_of_select_reserved hc] at h
    exact .inl ⟨hc, (Host.Outcome.refused.inj h).symm⟩

/-- Settles O33: a running pass is never stuck, and between passes no move and a reset have a next state, so a command was refused. -/
theorem onlyBadLaunchesAreRefused : Obligations.OnlyBadLaunchesAreRefused := by
  intro s r hinv h
  have hp : s.phase ≠ .run := by
    intro hrun
    obtain ⟨t, ht⟩ := runningPassIsNeverStuck s hinv hrun
    rw [ht] at h
    cases h
  match hh : s.host with
  | [] =>
    rw [step_idle s hp hh] at h
    cases h
  | .reset :: rest =>
    rw [step_reset s rest hp hh] at h
    cases h
  | .present c :: rest => exact ⟨hp, c, rest, rfl, refusal_of_step_present hp hh h⟩

end Sys2Proof.Machine

/-! ### Reset, the idle step, and the start of a pass (R262, R263, R267) -/

namespace Sys2Proof.Machine

/-- Settles O3: between passes a step takes the host's next move, and there is none. -/
theorem noMoveLeavesEngineAsItIs : Obligations.NoMoveLeavesEngineAsItIs :=
  step_idle

/-- Settles O2: the step takes the move off the list and applies the reset, whose registers are those of R36. -/
theorem hostResetGivesResetState : Obligations.HostResetGivesResetState := by
  intro s rest hp hh
  exact ⟨(s.withHost rest).applyReset, step_reset s rest hp hh, by simp⟩

/-- Settles O13: each of the three commands asks first whether a pass runs. -/
theorem startWhileRunningIsNoMove : Obligations.StartWhileRunningIsNoMove := by
  intro s hp
  refine ⟨fun a d => ?_, fun bc addr rt pay => ?_, fun u => ?_⟩
  · rw [exec, execEncode, State.ifStartable_of_run _ _ hp]
  · rw [exec, execFormat, State.ifStartable_of_run _ _ hp]
  · rw [exec, execEmitEla, State.ifStartable_of_run _ _ hp]

end Sys2Proof.Machine
